-- ==== Sys2Proof/Word.lean ====
section
/-! DEFINITION. The words of the machine: bytes, 16-bit words and register numbers (spec/00_scope.md R5 to R7). -/

namespace Sys2Proof

/-- An 8-bit value: a memory byte, a general register, a timer (R5). -/
abbrev Byte := BitVec 8

/-- A 16-bit value: an instruction word, PC, I, a stack slot (R5). -/
abbrev Word := BitVec 16

/-- The number of a general register, 0x0 to 0xF (R13). -/
abbrev Reg := Fin 16

/-- The number of a key, 0x0 to 0xF (R22). -/
abbrev Key := Fin 16

end Sys2Proof
end

