-- ==== Sys2Proof/Config.lean ====
section
/-! DEFINITION. The parameters the hardware fixes (spec/00_scope.md R5) and the one free value, the random draw. -/

namespace Sys2Proof.Config

/-- `MEM_SIZE`: addresses 0x000 to 0xFFF (R5, R27). -/
abbrev memSize : Nat := 0x1000

/-- `ENTRY`: where a loaded program begins, and PC after reset (R5). -/
abbrev entry : Nat := 0x200

/-- `IMAGE_MAX`: the longest program image, `memSize - entry` bytes (R5). -/
abbrev imageMax : Nat := 0xE00

/-- `STACK_DEPTH`: return addresses the call stack holds (R5). -/
abbrev stackDepth : Nat := 16

/-- `SCREEN_W` (R5). -/
abbrev screenW : Nat := 64

/-- `SCREEN_H` (R5). -/
abbrev screenH : Nat := 32

/-- `FONT_GLYPH_BYTES` (R5). -/
abbrev glyphBytes : Nat := 5

/-- `RANDOM` (R5, R79; decision D13): the 8-bit draw of the n-th `RND` the machine runs. A FREE VALUE: it has no
body, so nothing can be proved of any draw (DESIGN CHOICE, log entry 1). -/
opaque randomDraw : Nat → Byte

end Sys2Proof.Config
end

