-- ==== Sys2Proof/Syntax.lean ====
section
/-! DEFINITION. The 34 instructions (spec/30_encoding.md R46), one constructor per row of spec/opcode_table.json. -/

namespace Sys2Proof

/-- An instruction. `x` and `y` are register numbers, `kk` the 8-bit immediate, `nnn` the address field
zero-extended to 16 bits (R43) and `n` the sprite height in rows. `wellFormed` holds `nnn` to 12 bits and `n` to 4
(DESIGN CHOICE, log entry 7). The nibble that `5xy?` and `9xy?` ignore (R45) is no operand (DESIGN CHOICE, log
entry 6). -/
inductive Instr where
  /-- `CLS`, 00E0 (R86) -/
  | cls
  /-- `RET`, 00EE (R59) -/
  | ret
  /-- `JP addr`, 1nnn (R60) -/
  | jp (nnn : Word)
  /-- `CALL addr`, 2nnn (R61) -/
  | call (nnn : Word)
  /-- `SE Vx, byte`, 3xkk (R62) -/
  | seImm (x : Reg) (kk : Byte)
  /-- `SNE Vx, byte`, 4xkk (R63) -/
  | sneImm (x : Reg) (kk : Byte)
  /-- `SE Vx, Vy`, 5xy? (R64) -/
  | seReg (x y : Reg)
  /-- `LD Vx, byte`, 6xkk (R68) -/
  | ldImm (x : Reg) (kk : Byte)
  /-- `ADD Vx, byte`, 7xkk (R69) -/
  | addImm (x : Reg) (kk : Byte)
  /-- `LD Vx, Vy`, 8xy0 (R70) -/
  | ldReg (x y : Reg)
  /-- `OR Vx, Vy`, 8xy1 (R71) -/
  | orReg (x y : Reg)
  /-- `AND Vx, Vy`, 8xy2 (R72) -/
  | andReg (x y : Reg)
  /-- `XOR Vx, Vy`, 8xy3 (R73) -/
  | xorReg (x y : Reg)
  /-- `ADD Vx, Vy`, 8xy4 (R74) -/
  | addReg (x y : Reg)
  /-- `SUB Vx, Vy`, 8xy5 (R75) -/
  | sub (x y : Reg)
  /-- `SHR Vx {, Vy}`, 8xy6 (R77); `y` is encoded and never read -/
  | shr (x y : Reg)
  /-- `SUBN Vx, Vy`, 8xy7 (R76) -/
  | subn (x y : Reg)
  /-- `SHL Vx {, Vy}`, 8xyE (R78); `y` is encoded and never read -/
  | shl (x y : Reg)
  /-- `SNE Vx, Vy`, 9xy? (R65) -/
  | sneReg (x y : Reg)
  /-- `LD I, addr`, Annn (R80) -/
  | ldI (nnn : Word)
  /-- `JP V0, addr`, Bnnn (R66) -/
  | jpV0 (nnn : Word)
  /-- `RND Vx, byte`, Cxkk (R79) -/
  | rnd (x : Reg) (kk : Byte)
  /-- `DRW Vx, Vy, nibble`, Dxyn (R87) -/
  | drw (x y : Reg) (n : Nat)
  /-- `SKP Vx`, Ex9E (R90) -/
  | skp (x : Reg)
  /-- `SKNP Vx`, ExA1 (R91) -/
  | sknp (x : Reg)
  /-- `LD Vx, DT`, Fx07 (R92) -/
  | ldVxDt (x : Reg)
  /-- `LD Vx, K`, Fx0A (R95) -/
  | ldVxK (x : Reg)
  /-- `LD DT, Vx`, Fx15 (R93) -/
  | ldDtVx (x : Reg)
  /-- `LD ST, Vx`, Fx18 (R94) -/
  | ldStVx (x : Reg)
  /-- `ADD I, Vx`, Fx1E (R81) -/
  | addI (x : Reg)
  /-- `LD F, Vx`, Fx29 (R82) -/
  | ldF (x : Reg)
  /-- `LD B, Vx`, Fx33 (R83) -/
  | ldB (x : Reg)
  /-- `LD [I], Vx`, Fx55 (R84) -/
  | ldMemVx (x : Reg)
  /-- `LD Vx, [I]`, Fx65 (R85) -/
  | ldVxMem (x : Reg)
deriving DecidableEq, Repr

end Sys2Proof
end

