-- ==== Sys2Proof/WellFormed.lean ====
section
/-! DEFINITION. Which terms of `Instr` stand for instruction words: the operands fit their fields (spec/30_encoding.md
R43). Register numbers and bytes fit by their types; the address field and the sprite height are checked here. -/

namespace Sys2Proof

/-- The address field has 12 bits (R43). -/
def addrFits (nnn : Word) : Bool := decide (nnn.toNat ≤ 0xFFF)

/-- The sprite height has 4 bits (R43). -/
def heightFits (n : Nat) : Bool := decide (n ≤ 15)

/-- Every operand fits its field. Each instruction the decoder gives is well formed. -/
def Instr.wellFormed : Instr → Bool
  | .jp nnn | .call nnn | .ldI nnn | .jpV0 nnn => addrFits nnn
  | .drw _ _ n => heightFits n
  | .cls | .ret => true
  | .seImm _ _ | .sneImm _ _ | .ldImm _ _ | .addImm _ _ | .rnd _ _ => true
  | .seReg _ _ | .sneReg _ _ => true
  | .ldReg _ _ | .orReg _ _ | .andReg _ _ | .xorReg _ _ | .addReg _ _ | .sub _ _ | .shr _ _ | .subn _ _
  | .shl _ _ => true
  | .skp _ | .sknp _ => true
  | .ldVxDt _ | .ldVxK _ | .ldDtVx _ | .ldStVx _ | .addI _ | .ldF _ | .ldB _ | .ldMemVx _ | .ldVxMem _ => true

end Sys2Proof
end

