-- ==== Sys2Proof/Decode.lean ====
section
/-! DEFINITION. The decoder and the encoder (spec/30_encoding.md R40 to R47). Decoding a word is a total function of
the word alone; decoding bytes says by name why it gives no instruction. The nibble values that the spec marks as
general knowledge are in log entry 5 (UNVERIFIED). -/

namespace Sys2Proof

/-- `w[15:12]`, nibble 1 (spec/00_scope.md R6). -/
def nibble1 (w : Word) : BitVec 4 := w.extractLsb 15 12

/-- `w[3:0]`, nibble 4 (R6). -/
def nibble4 (w : Word) : BitVec 4 := w.extractLsb 3 0

/-- `w[7:0]`, the third and fourth nibbles together (R43). -/
def lowByte (w : Word) : Byte := w.extractLsb 7 0

/-- `x = w[11:8]` (R43). -/
def fieldX (w : Word) : Reg := (w.extractLsb 11 8).toFin

/-- `y = w[7:4]` (R43). -/
def fieldY (w : Word) : Reg := (w.extractLsb 7 4).toFin

/-- `n = w[3:0]`, a count of rows (R43). -/
def fieldN (w : Word) : Nat := (nibble4 w).toNat

/-- `kk = w[7:0]` (R43). -/
def fieldKK (w : Word) : Byte := lowByte w

/-- `nnn = w[11:0]`, zero-extended to 16 bits (R43). -/
def fieldNNN (w : Word) : Word := (w.extractLsb 11 0).zeroExtend 16

/-- The 0 family is matched on the whole word (R44; decision D3: no SYS). -/
def decode0 (w : Word) : Option Instr :=
  if w = 0x00E0#16 then some .cls
  else if w = 0x00EE#16 then some .ret
  else none

/-- The 8 family is picked by the low nibble (R44). -/
def decode8 (w : Word) : Option Instr :=
  if nibble4 w = 0x0#4 then some (.ldReg (fieldX w) (fieldY w))
  else if nibble4 w = 0x1#4 then some (.orReg (fieldX w) (fieldY w))
  else if nibble4 w = 0x2#4 then some (.andReg (fieldX w) (fieldY w))
  else if nibble4 w = 0x3#4 then some (.xorReg (fieldX w) (fieldY w))
  else if nibble4 w = 0x4#4 then some (.addReg (fieldX w) (fieldY w))
  else if nibble4 w = 0x5#4 then some (.sub (fieldX w) (fieldY w))
  else if nibble4 w = 0x6#4 then some (.shr (fieldX w) (fieldY w))
  else if nibble4 w = 0x7#4 then some (.subn (fieldX w) (fieldY w))
  else if nibble4 w = 0xE#4 then some (.shl (fieldX w) (fieldY w))
  else none

/-- The E family is picked by the low byte (R44). -/
def decodeE (w : Word) : Option Instr :=
  if lowByte w = 0x9E#8 then some (.skp (fieldX w))
  else if lowByte w = 0xA1#8 then some (.sknp (fieldX w))
  else none

/-- The F family is picked by the low byte (R44). -/
def decodeF (w : Word) : Option Instr :=
  if lowByte w = 0x07#8 then some (.ldVxDt (fieldX w))
  else if lowByte w = 0x0A#8 then some (.ldVxK (fieldX w))
  else if lowByte w = 0x15#8 then some (.ldDtVx (fieldX w))
  else if lowByte w = 0x18#8 then some (.ldStVx (fieldX w))
  else if lowByte w = 0x1E#8 then some (.addI (fieldX w))
  else if lowByte w = 0x29#8 then some (.ldF (fieldX w))
  else if lowByte w = 0x33#8 then some (.ldB (fieldX w))
  else if lowByte w = 0x55#8 then some (.ldMemVx (fieldX w))
  else if lowByte w = 0x65#8 then some (.ldVxMem (fieldX w))
  else none

/-- `decode(w)` of R44: the instruction, or `none` for `UNKNOWN`. The 5 and 9 families do not look at nibble 4
(R45). -/
def decodeWord (w : Word) : Option Instr :=
  match (nibble1 w).toNat with
  | 0x0 => decode0 w
  | 0x1 => some (.jp (fieldNNN w))
  | 0x2 => some (.call (fieldNNN w))
  | 0x3 => some (.seImm (fieldX w) (fieldKK w))
  | 0x4 => some (.sneImm (fieldX w) (fieldKK w))
  | 0x5 => some (.seReg (fieldX w) (fieldY w))
  | 0x6 => some (.ldImm (fieldX w) (fieldKK w))
  | 0x7 => some (.addImm (fieldX w) (fieldKK w))
  | 0x8 => decode8 w
  | 0x9 => some (.sneReg (fieldX w) (fieldY w))
  | 0xA => some (.ldI (fieldNNN w))
  | 0xB => some (.jpV0 (fieldNNN w))
  | 0xC => some (.rnd (fieldX w) (fieldKK w))
  | 0xD => some (.drw (fieldX w) (fieldY w) (fieldN w))
  | 0xE => decodeE w
  | 0xF => decodeF w
  | _ => none

/-- The two bytes of an instruction as its word, big-endian: the first byte is bits 15:8
(spec/20_memory.md R29). -/
def wordOfBytes (hi lo : Byte) : Word := hi ++ lo

/-- The byte of an instruction word at the lower address (R29). -/
def highByteOf (w : Word) : Byte := w.extractLsb 15 8

/-- The byte of an instruction word at the higher address (R29). -/
def lowByteOf (w : Word) : Byte := w.extractLsb 7 0

/-- Why bytes give no instruction. -/
inductive DecodeReject where
  /-- fewer than two bytes are there -/
  | truncated
  /-- the word 0x0000, the end-of-program sentinel, which is no instruction (spec/40_cycle.md R52) -/
  | endSentinel
  /-- the word maps to `UNKNOWN` (R47) -/
  | unknownOpcode (w : Word)
deriving DecidableEq, Repr

/-- Decode the instruction at the head of a list of bytes, and give the bytes that follow it (R29, R41, R44). -/
def decode : List Byte → Except DecodeReject (Instr × List Byte)
  | hi :: lo :: rest =>
    if wordOfBytes hi lo = 0#16 then .error .endSentinel
    else match decodeWord (wordOfBytes hi lo) with
      | some i => .ok (i, rest)
      | none => .error (.unknownOpcode (wordOfBytes hi lo))
  | _ => .error .truncated

/-- Format NNN (R42): `op` and a 12-bit address. -/
def wordNNN (op : BitVec 4) (nnn : Word) : Word := op ++ nnn.extractLsb 11 0

/-- Format XKK (R42): `op`, a register and a byte. -/
def wordXKK (op : BitVec 4) (x : Reg) (kk : Byte) : Word := op ++ BitVec.ofFin (w := 4) x ++ kk

/-- Formats XY-, XYS and XYN (R42): `op`, two registers and a nibble. -/
def wordXYN (op : BitVec 4) (x y : Reg) (n : BitVec 4) : Word :=
  op ++ BitVec.ofFin (w := 4) x ++ BitVec.ofFin (w := 4) y ++ n

/-- The word of an instruction, from the opcode map (R46). The ignored nibble of `5xy?` and `9xy?` is written as 0
(DESIGN CHOICE, log entry 6). -/
def encode : Instr → Word
  | .cls => 0x00E0#16
  | .ret => 0x00EE#16
  | .jp nnn => wordNNN 0x1#4 nnn
  | .call nnn => wordNNN 0x2#4 nnn
  | .seImm x kk => wordXKK 0x3#4 x kk
  | .sneImm x kk => wordXKK 0x4#4 x kk
  | .seReg x y => wordXYN 0x5#4 x y 0x0#4
  | .ldImm x kk => wordXKK 0x6#4 x kk
  | .addImm x kk => wordXKK 0x7#4 x kk
  | .ldReg x y => wordXYN 0x8#4 x y 0x0#4
  | .orReg x y => wordXYN 0x8#4 x y 0x1#4
  | .andReg x y => wordXYN 0x8#4 x y 0x2#4
  | .xorReg x y => wordXYN 0x8#4 x y 0x3#4
  | .addReg x y => wordXYN 0x8#4 x y 0x4#4
  | .sub x y => wordXYN 0x8#4 x y 0x5#4
  | .shr x y => wordXYN 0x8#4 x y 0x6#4
  | .subn x y => wordXYN 0x8#4 x y 0x7#4
  | .shl x y => wordXYN 0x8#4 x y 0xE#4
  | .sneReg x y => wordXYN 0x9#4 x y 0x0#4
  | .ldI nnn => wordNNN 0xA#4 nnn
  | .jpV0 nnn => wordNNN 0xB#4 nnn
  | .rnd x kk => wordXKK 0xC#4 x kk
  | .drw x y n => wordXYN 0xD#4 x y (BitVec.ofNat 4 n)
  | .skp x => wordXKK 0xE#4 x 0x9E#8
  | .sknp x => wordXKK 0xE#4 x 0xA1#8
  | .ldVxDt x => wordXKK 0xF#4 x 0x07#8
  | .ldVxK x => wordXKK 0xF#4 x 0x0A#8
  | .ldDtVx x => wordXKK 0xF#4 x 0x15#8
  | .ldStVx x => wordXKK 0xF#4 x 0x18#8
  | .addI x => wordXKK 0xF#4 x 0x1E#8
  | .ldF x => wordXKK 0xF#4 x 0x29#8
  | .ldB x => wordXKK 0xF#4 x 0x33#8
  | .ldMemVx x => wordXKK 0xF#4 x 0x55#8
  | .ldVxMem x => wordXKK 0xF#4 x 0x65#8

/-- The bytes of an instruction as memory holds them (R29). -/
def encodeBytes (i : Instr) : List Byte := [highByteOf (encode i), lowByteOf (encode i)]

/-- The fixed fields of an instruction's row in spec/opcode_table.json, each as (hi, lo, value). -/
def opcodeRow : Instr → List (Nat × Nat × Nat)
  | .cls => [(15, 0, 0xE0)]
  | .ret => [(15, 0, 0xEE)]
  | .jp _ => [(15, 12, 0x1)]
  | .call _ => [(15, 12, 0x2)]
  | .seImm _ _ => [(15, 12, 0x3)]
  | .sneImm _ _ => [(15, 12, 0x4)]
  | .seReg _ _ => [(15, 12, 0x5)]
  | .ldImm _ _ => [(15, 12, 0x6)]
  | .addImm _ _ => [(15, 12, 0x7)]
  | .ldReg _ _ => [(15, 12, 0x8), (3, 0, 0x0)]
  | .orReg _ _ => [(15, 12, 0x8), (3, 0, 0x1)]
  | .andReg _ _ => [(15, 12, 0x8), (3, 0, 0x2)]
  | .xorReg _ _ => [(15, 12, 0x8), (3, 0, 0x3)]
  | .addReg _ _ => [(15, 12, 0x8), (3, 0, 0x4)]
  | .sub _ _ => [(15, 12, 0x8), (3, 0, 0x5)]
  | .shr _ _ => [(15, 12, 0x8), (3, 0, 0x6)]
  | .subn _ _ => [(15, 12, 0x8), (3, 0, 0x7)]
  | .shl _ _ => [(15, 12, 0x8), (3, 0, 0xE)]
  | .sneReg _ _ => [(15, 12, 0x9)]
  | .ldI _ => [(15, 12, 0xA)]
  | .jpV0 _ => [(15, 12, 0xB)]
  | .rnd _ _ => [(15, 12, 0xC)]
  | .drw _ _ _ => [(15, 12, 0xD)]
  | .skp _ => [(15, 12, 0xE), (7, 0, 0x9E)]
  | .sknp _ => [(15, 12, 0xE), (7, 0, 0xA1)]
  | .ldVxDt _ => [(15, 12, 0xF), (7, 0, 0x7)]
  | .ldVxK _ => [(15, 12, 0xF), (7, 0, 0xA)]
  | .ldDtVx _ => [(15, 12, 0xF), (7, 0, 0x15)]
  | .ldStVx _ => [(15, 12, 0xF), (7, 0, 0x18)]
  | .addI _ => [(15, 12, 0xF), (7, 0, 0x1E)]
  | .ldF _ => [(15, 12, 0xF), (7, 0, 0x29)]
  | .ldB _ => [(15, 12, 0xF), (7, 0, 0x33)]
  | .ldMemVx _ => [(15, 12, 0xF), (7, 0, 0x55)]
  | .ldVxMem _ => [(15, 12, 0xF), (7, 0, 0x65)]

/-- A word has a fixed field of a row: its bits hi down to lo are the value. -/
def hasField (w : Word) (f : Nat × Nat × Nat) : Prop := w.toNat / 2 ^ f.2.1 % 2 ^ (f.1 - f.2.1 + 1) = f.2.2

/-- The instruction the decoder reads from an instruction whose bits are `w`, bit 0 the least significant bit of its
first (and only) word; bits above `nbits` are 0. The word is laid out as memory holds it (R29). -/
def decodeTableWord (nbits w : Nat) : Option Instr :=
  match decode [highByteOf (BitVec.ofNat 16 (w % 2 ^ nbits)), lowByteOf (BitVec.ofNat 16 (w % 2 ^ nbits))] with
  | .ok (i, _) => some i
  | .error _ => none

end Sys2Proof
end

