-- ==== Sys2Proof/Machine/State.lean ====
section
/-! DEFINITION. Every piece of state the CORE holds (spec/10_state.md, the tuple of its first section), as plain
data, and the state after Reset (R26). -/

namespace Sys2Proof.Machine

/-- The run state (R23). -/
inductive Status where
  /-- a Step executes an instruction -/
  | running
  /-- the fetch read the end sentinel 0x0000 -/
  | ended
  /-- an instruction raised a runtime error -/
  | faulted
deriving DecidableEq, Repr

/-- The five runtime errors (spec/60_exceptions.md R97). They are part of the machine's state: a Step that raises one
answers a next state (R98). -/
inductive FaultKind where
  /-- RET with an empty call stack -/
  | stackUnderflow
  /-- CALL with 16 return addresses on the stack -/
  | stackOverflow
  /-- a control-transfer target outside [0x200, 0xFFF] -/
  | addressError
  /-- a word that decodes to UNKNOWN -/
  | unknownOpcode
  /-- a memory access beyond 0xFFF, or a key number above 0xF -/
  | boundsError
deriving DecidableEq, Repr

/-- The fault record (R23, R97). -/
structure FaultRecord where
  kind : FaultKind
  /-- the PC of the faulting instruction -/
  pc : Word
  /-- the instruction word; `none` for a fetch fault -/
  word : Option Word
  /-- the value R97's table names for the kind -/
  info : Word
deriving DecidableEq, Repr

/-- Memory: the bytes that differ from what they hold after Reset, each with its address, addresses rising. -/
abbrev Memory := List Host.Cell

/-- The framebuffer (R20): 32 rows of 64 cells, `true` for a set cell. Row `y`, column `x` is `fb[x][y]`. -/
abbrev Framebuffer := Vector (Vector Bool 64) 32

/-- The state of the CORE. -/
structure State where
  /-- V0 to VF (R13); VF is also the flag register (R14) -/
  v : Vector Byte 16
  /-- the index register (R17) -/
  i : Word
  /-- the program counter (R16) -/
  pc : Word
  /-- the return-address slots (R18) -/
  stack : Vector Word 16
  /-- SP, the number of slots in use, 0 to 16 (R18) -/
  sp : Fin 17
  /-- the delay timer (R19) -/
  dt : Byte
  /-- the sound timer (R19) -/
  st : Byte
  /-- the framebuffer (R20) -/
  fb : Framebuffer
  /-- "should redraw" (R21) -/
  drawFlag : Bool
  /-- the keyboard input bank, `true` for a pressed key (R22) -/
  keys : Vector Bool 16
  /-- the run status (R23) -/
  status : Status
  /-- the fault taken, if one was (R23) -/
  fault : Option FaultRecord
  /-- the 4096 bytes of memory (spec/20_memory.md R27) -/
  mem : Memory
  /-- the model's own: how many draws `RND` has taken; the next one is `Config.randomDraw drawCount`
  (DESIGN CHOICE, log entries 1 and 2) -/
  drawCount : Nat
deriving DecidableEq, Repr

/-- Why a step could stop outside the machine's own state. It has no constructor: the spec gives every step an effect,
and a runtime error of the spec is a next state whose status is FAULTED (R98; DESIGN CHOICE,
log entry 9). Nobody raises one, which is safe. -/
inductive Fault where
deriving DecidableEq, Repr

/-- Why an instruction has no meaning. -/
inductive Refusal where
  /-- raised by `exec`'s arm of an instruction that has no meaning yet; no arm raises it now; safe -/
  | notModelled (mnemonic : String)
deriving DecidableEq, Repr

/-- The state right after Reset (R26, R109). Memory lists nothing: an unlisted address reads as its byte after Reset,
which is `FONT` in 0x000 to 0x04F and 0 elsewhere. -/
def State.reset : State where
  v := Vector.replicate 16 0x00#8
  i := 0x0000#16
  pc := 0x200#16
  stack := Vector.replicate 16 0x0000#16
  sp := 0
  dt := 0x00#8
  st := 0x00#8
  fb := Vector.replicate 32 (Vector.replicate 64 false)
  drawFlag := false
  keys := Vector.replicate 16 false
  status := .running
  fault := none
  mem := []
  drawCount := 0

end Sys2Proof.Machine
end

