-- ==== Sys2Proof/Machine/Ops.lean ====
section
/-! DEFINITION. The named operations over memory, the registers, the call stack and the framebuffer, how a handler
ends (the PC advance), taking a runtime error, and fetching an instruction's word. -/

namespace Sys2Proof.Machine

/-! ### Memory (spec/20_memory.md) -/

/-- `FONT`, glyphs 0 to 7: the default of the parameter (R34, decision D15; DESIGN CHOICE, log entry 3). -/
def fontLow : List Byte :=
  [0xF0, 0x90, 0x90, 0x90, 0xF0] ++ [0x20, 0x60, 0x20, 0x20, 0x70] ++
  [0xF0, 0x10, 0xF0, 0x80, 0xF0] ++ [0xF0, 0x10, 0xF0, 0x10, 0xF0] ++
  [0x90, 0x90, 0xF0, 0x10, 0x10] ++ [0xF0, 0x80, 0xF0, 0x10, 0xF0] ++
  [0xF0, 0x80, 0xF0, 0x90, 0xF0] ++ [0xF0, 0x10, 0x20, 0x40, 0x40]

/-- `FONT`, glyphs 8 to F. -/
def fontHigh : List Byte :=
  [0xF0, 0x90, 0xF0, 0x90, 0xF0] ++ [0xF0, 0x90, 0xF0, 0x10, 0xF0] ++
  [0xF0, 0x90, 0xF0, 0x90, 0x90] ++ [0xE0, 0x90, 0xE0, 0x90, 0xE0] ++
  [0xF0, 0x80, 0x80, 0x80, 0xF0] ++ [0xE0, 0x90, 0x90, 0x90, 0xE0] ++
  [0xF0, 0x80, 0xF0, 0x80, 0xF0] ++ [0xF0, 0x80, 0xF0, 0x80, 0x80]

/-- `FONT`: 16 glyphs of 5 bytes, glyph d at address 5·d (R34). -/
def font : List Byte := fontLow ++ fontHigh

/-- What an unlisted address reads as: its byte after Reset (spec/10_state.md R26). -/
def unlistedByte (a : Nat) : Byte := font.getD a 0x00#8

/-- The byte at an address (R27, R36). -/
def Memory.read : Memory → Nat → Byte
  | [], a => unlistedByte a
  | (b, w) :: rest, a => if a = b then w else Memory.read rest a

/-- Memory without the entries of an address. -/
def Memory.dropCell (m : Memory) (a : Nat) : Memory := m.filter fun c => c.1 != a

/-- A cell put before the first entry of a higher address. -/
def Memory.addCell (a : Nat) (w : Byte) : Memory → Memory
  | [] => [(a, w)]
  | c :: rest => if a < c.1 then (a, w) :: c :: rest else c :: Memory.addCell a w rest

/-- Write one byte, keeping the canonical form: a byte an unlisted address reads as is not listed. -/
def Memory.write (m : Memory) (a : Nat) (w : Byte) : Memory :=
  if w = unlistedByte a then m.dropCell a else Memory.addCell a w (m.dropCell a)

/-- The canonical form: addresses strictly rising and inside memory, and no entry equal to what an unlisted address
reads as. -/
abbrev Memory.wf (m : Memory) : Prop :=
  m.Pairwise (fun c d => c.1 < d.1) ∧ ∀ c ∈ m, c.1 < Config.memSize ∧ c.2 ≠ unlistedByte c.1

/-- `n` bytes from `a` on, in order (spec/00_scope.md R8). -/
def Memory.readBytes (m : Memory) (a : Nat) : Nat → List Byte
  | 0 => []
  | n + 1 => m.read a :: Memory.readBytes m (a + 1) n

/-- Bytes written at `a`, `a + 1`, … in order (R8). -/
def Memory.writeBytes (m : Memory) (a : Nat) : List Byte → Memory
  | [] => m
  | w :: ws => Memory.writeBytes (m.write a w) (a + 1) ws

/-- An access of `n` bytes at `a` is in range (R28). An access of no bytes always is. -/
abbrev InRange (a n : Nat) : Prop := 0 < n → a + n - 1 ≤ 0xFFF

/-- `MemRead(a, n)` (R28): `none` where the access is out of range and is not made. -/
def State.memRead (s : State) (a n : Nat) : Option (List Byte) :=
  if InRange a n then some (s.mem.readBytes a n) else none

/-- `MemWrite(a, n, bytes)` (R28), `n` the number of bytes: `none` where the access is out of range and is not
made. -/
def State.memWrite (s : State) (a : Nat) (bytes : List Byte) : Option State :=
  if InRange a bytes.length then some { s with mem := s.mem.writeBytes a bytes } else none

/-! ### Registers (spec/10_state.md) -/

/-- VF, the flag register (R14). -/
abbrev vf : Reg := 0xF

/-- `V[r]` (R13). -/
def State.readV (s : State) (r : Reg) : Byte := s.v[r.val]

/-- `V[r] <- b` (R13). -/
def State.setV (s : State) (r : Reg) (b : Byte) : State := { s with v := s.v.set r.val b }

/-- `I <- w` (R17). -/
def State.setI (s : State) (w : Word) : State := { s with i := w }

/-- `PC <- w` (R16). -/
def State.setPc (s : State) (w : Word) : State := { s with pc := w }

/-- `DT <- b` (R19). -/
def State.setDt (s : State) (b : Byte) : State := { s with dt := b }

/-- `ST <- b` (R19). -/
def State.setSt (s : State) (b : Byte) : State := { s with st := b }

/-- `V[j] <- bytes[0]; V[j+1] <- bytes[1]; …` (spec/43_index_memory.md R85). -/
def State.loadBlock (s : State) (j : Nat) : List Byte → State
  | [] => s
  | b :: bs => State.loadBlock (s.setV (Fin.ofNat 16 j) b) (j + 1) bs

/-- `[V[0], V[1], …, V[n-1]]` (R84). -/
def State.firstV (s : State) (n : Nat) : List Byte := s.v.toList.take n

/-- The draw of this execution of `RND` and the state that has taken it (spec/42_alu.md R79; DESIGN CHOICE,
log entry 1). -/
def State.draw (s : State) : Byte × State :=
  (Config.randomDraw s.drawCount, { s with drawCount := s.drawCount + 1 })

/-! ### The call stack (spec/10_state.md R18) -/

/-- `stack[SP] <- w; SP <- SP + 1`; `none` where all 16 slots are in use (spec/41_control_flow.md R61). -/
def State.push (s : State) (w : Word) : Option State :=
  if h : s.sp.val < 16 then some { s with stack := s.stack.set s.sp.val w, sp := ⟨s.sp.val + 1, by omega⟩ }
  else none

/-- `SP <- SP - 1` and then `stack[SP]`; `none` where no slot is in use (R59). The slot keeps its value. -/
def State.pop (s : State) : Option (Word × State) :=
  if h : 0 < s.sp.val then
    some (s.stack[s.sp.val - 1]'(by omega), { s with sp := ⟨s.sp.val - 1, by omega⟩ })
  else none

/-! ### The framebuffer (spec/10_state.md R20, R21) -/

/-- `fb[x][y]`, the coordinates wrapping at the edges. -/
def Framebuffer.cell (fb : Framebuffer) (x y : Nat) : Bool :=
  (fb[y % 32]'(Nat.mod_lt y (by decide)))[x % 64]'(Nat.mod_lt x (by decide))

/-- `fb[x][y] <- fb[x][y] ^ 1`, the coordinates wrapping at the edges. -/
def Framebuffer.toggle (fb : Framebuffer) (x y : Nat) : Framebuffer :=
  fb.set (y % 32) ((fb[y % 32]'(Nat.mod_lt y (by decide))).set (x % 64) (!fb.cell x y) (Nat.mod_lt x (by decide)))
    (Nat.mod_lt y (by decide))

/-- Every cell clear (spec/44_display.md R86). -/
def Framebuffer.blank : Framebuffer := Vector.replicate 32 (Vector.replicate 64 false)

/-- `fb` and `draw_flag` written together. -/
def State.setScreen (s : State) (fb : Framebuffer) (drawFlag : Bool) : State :=
  { s with fb := fb, drawFlag := drawFlag }

/-! ### The keyboard bank (spec/10_state.md R22) -/

/-- `key[k]` is 1. -/
def State.keyPressed (s : State) (k : Key) : Bool := s.keys[k.val]

/-- The least pressed key (spec/45_timers_keys.md R95, decision D12). -/
def State.leastKey (s : State) : Option Nat := s.keys.toList.findIdx? id

/-! ### How a handler ends (spec/40_cycle.md R54, R55) -/

/-- The advance signal a handler returns (R54). -/
inductive Advance where
  /-- `NEXT`: PC + 2 -/
  | next
  /-- `SKIP`: PC + 4 -/
  | skip
  /-- `NONE`: PC as the handler left it -/
  | none
deriving DecidableEq, Repr

/-- What the executor adds to PC for a signal (R55). -/
def advanceBy : Advance → Word
  | .next => 2#16
  | .skip => 4#16
  | .none => 0#16

/-- The PC update after the handler (R55). It is never checked. -/
def State.advance (s : State) (a : Advance) : State := { s with pc := s.pc + advanceBy a }

/-- A handler that completes with signal `a` in state `s`. -/
def complete (a : Advance) (s : State) : Host.Outcome State Fault Refusal := .next (s.advance a)

/-- `SKIP` where the condition holds, else `NEXT` (R54). -/
def skipIf (c : Bool) : Advance := if c then .skip else .next

/-! ### Taking a runtime error, and the end of a run (spec/60_exceptions.md) -/

/-- Fault entry (R98): status and the fault record are written and nothing else. `word` is `none` for a fetch
fault. -/
def State.raise (s : State) (kind : FaultKind) (word : Option Word) (info : Word) : State :=
  { s with status := .faulted, fault := some { kind := kind, pc := s.pc, word := word, info := info } }

/-- A handler of instruction `i` that raises a runtime error (R98). The recorded word is `i`'s (DESIGN CHOICE,
log entry 10). -/
def raiseIn (i : Instr) (kind : FaultKind) (info : Word) (s : State) : Host.Outcome State Fault Refusal :=
  .next (s.raise kind (some (encode i)) info)

/-- The fetch of the end sentinel (spec/40_cycle.md R52): status becomes ENDED and nothing else changes. -/
def State.endRun (s : State) : State := { s with status := .ended }

/-- Reset as a host operation (spec/70_reset_and_hazards.md R109), the only way out of ENDED and FAULTED (R100). The
count of draws goes on, so the draws after it are fresh (DESIGN CHOICE, log entry 2). -/
def State.applyReset (s : State) : State := { State.reset with drawCount := s.drawCount }

/-! ### Fetch (spec/40_cycle.md R52) -/

/-- The word at PC, big-endian; `none` where PC + 1 lies beyond memory. -/
def State.fetchWord (s : State) : Option Word :=
  if s.pc.toNat + 1 ≤ 0xFFF then
    some (wordOfBytes (s.mem.read s.pc.toNat) (s.mem.read (s.pc.toNat + 1)))
  else none

/-- An instruction word stored at PC, where the next fetch reads it; nothing where PC + 1 lies beyond memory. -/
def State.storeAtPc (s : State) (w : Word) : State :=
  (s.memWrite s.pc.toNat [highByteOf w, lowByteOf w]).getD s

end Sys2Proof.Machine
end

