-- ==== Sys2Proof/Machine/Operands.lean ====
section
/-! DEFINITION. The operand forms the instructions share: control-transfer targets, key numbers, the address in I,
the font glyph address, decimal digits and sprite pixels. -/

namespace Sys2Proof.Machine

/-- `target_check(t)` (spec/41_control_flow.md R58): the target, an exact integer, lies in [0x200, 0xFFF]. -/
def targetOk (t : Nat) : Bool := decide (0x200 ≤ t) && decide (t ≤ 0xFFF)

/-- The target of `JP` and `CALL`: the address field (R60, R61). -/
def directTarget (nnn : Word) : Nat := nnn.toNat

/-- The target of `JP V0`: the exact sum of V0 and the address field (R66, decision D25). -/
def offsetTarget (s : State) (nnn : Word) : Nat := (s.readV 0).toNat + nnn.toNat

/-- A key number taken from a register: `none` above 0xF (spec/45_timers_keys.md R89). -/
def keyOperand (k : Byte) : Option Key :=
  if h : k.toNat < 16 then some ⟨k.toNat, h⟩ else none

/-- The address of byte 0 of an access through I: the full 16-bit value, not masked (spec/43_index_memory.md,
"base I"; spec/20_memory.md R28). -/
def indexAddr (s : State) : Nat := s.i.toNat

/-- How many registers a block transfer with last register `x` moves (R84, R85). -/
def blockCount (x : Reg) : Nat := x.val + 1

/-- I after a block transfer of `x + 1` bytes: the sum mod 2^16 (R84, R85). -/
def indexAfterBlock (s : State) (x : Reg) : Word := s.i + BitVec.ofNat 16 (blockCount x)

/-- I after `ADD I, Vx`: the sum mod 2^16 (R81). -/
def indexPlus (s : State) (x : Reg) : Word := s.i + (s.readV x).zeroExtend 16

/-- The address of the glyph of digit `d`: `d * 5`, with no mask (R82). -/
def glyphAddr (d : Byte) : Word := BitVec.ofNat 16 (d.toNat * Config.glyphBytes)

/-- The decimal digits of a byte: hundreds, tens, ones (R83). -/
def bcdDigits (v : Byte) : List Byte := [v / 100#8, v / 10#8 % 10#8, v % 10#8]

/-- The pixel of a sprite row in column `c`, the most significant bit leftmost (spec/44_display.md R87). -/
def spriteBit (row : Byte) (c : Nat) : Bool := (row >>> (7 - c)) &&& 1#8 == 1#8

/-- The columns of a sprite row, leftmost first (R87). -/
def spriteColumns : List Nat := [0, 1, 2, 3, 4, 5, 6, 7]

end Sys2Proof.Machine
end

