-- ==== Sys2Proof/Machine/Flags.lean ====
section
/-! DEFINITION. Every value the instructions write to VF as a flag, and the two writes of a flag-setting ALU
instruction in their order (spec/10_state.md R14, R15). -/

namespace Sys2Proof.Machine

/-- `bool(c)` as a byte (spec/00_scope.md R7). -/
def boolByte (c : Bool) : Byte := if c then 1#8 else 0#8

/-- The carry of `a + b` (spec/42_alu.md R74). -/
def carryFlag (a b : Byte) : Byte := boolByte (decide (a.toNat + b.toNat > 255))

/-- NOT borrow of `a - b` (R75, R76). -/
def notBorrowFlag (a b : Byte) : Byte := boolByte (decide (a.toNat ≥ b.toNat))

/-- The bit a right shift moves out (R77). -/
def shiftedOutRight (a : Byte) : Byte := a &&& 1#8

/-- The bit a left shift moves out (R78). -/
def shiftedOutLeft (a : Byte) : Byte := (a >>> 7) &&& 1#8

/-- VF takes the flag, then Vx the result, so that for x = 0xF the result stands (R15, decision D9). -/
def State.setFlagThenV (s : State) (flag : Byte) (x : Reg) (result : Byte) : State :=
  (s.setV vf flag).setV x result

/-- What drawing a sprite has done so far: the framebuffer, whether a set cell was cleared, whether any cell
changed (spec/44_display.md R87). -/
structure Blit where
  fb : Framebuffer
  collide : Bool
  changed : Bool
deriving DecidableEq, Repr

/-- One pixel of a sprite row at column `c` (R87): where its bit is set, the cell is XORed, a cell that was set
collides, and the screen has changed. -/
def blitPixel (x0 y : Nat) (row : Byte) (c : Nat) (b : Blit) : Blit :=
  if spriteBit row c then
    { fb := b.fb.toggle (x0 + c) y, collide := b.collide || b.fb.cell (x0 + c) y, changed := true }
  else b

/-- One sprite row, its columns from the left (R87). -/
def blitRow (x0 y : Nat) (row : Byte) (b : Blit) : Blit :=
  spriteColumns.foldl (fun acc c => blitPixel x0 y row c acc) b

/-- The sprite's rows from the top, the first at row `y` (R87). -/
def blitRows (x0 : Nat) : Nat → List Byte → Blit → Blit
  | _, [], b => b
  | y, row :: rows, b => blitRows x0 (y + 1) rows (blitRow x0 y row b)

/-- The collision flag of a sprite drawn at (x0, y0), with the framebuffer and draw flag it leaves (R87). -/
def drawSprite (s : State) (x0 y0 : Nat) (rows : List Byte) : Byte × State :=
  let b := blitRows x0 y0 rows { fb := s.fb, collide := false, changed := false }
  (boolByte b.collide, s.setScreen b.fb (s.drawFlag || b.changed))

end Sys2Proof.Machine
end

