-- ==== Sys2Proof/Machine/Alu.lean ====
section
/-! DEFINITION. Register file and ALU (spec/42_alu.md). None of these instructions can fault and all return NEXT. -/

namespace Sys2Proof.Machine

/-- `LD Vx, byte` (R68). -/
def execLdImm (x : Reg) (kk : Byte) (s : State) : Host.Outcome State Fault Refusal :=
  complete .next (s.setV x kk)

/-- `ADD Vx, byte` (R69): no flag. -/
def execAddImm (x : Reg) (kk : Byte) (s : State) : Host.Outcome State Fault Refusal :=
  complete .next (s.setV x (s.readV x + kk))

/-- `LD Vx, Vy` (R70). -/
def execLdReg (x y : Reg) (s : State) : Host.Outcome State Fault Refusal :=
  complete .next (s.setV x (s.readV y))

/-- `OR Vx, Vy` (R71): VF is not reset. -/
def execOrReg (x y : Reg) (s : State) : Host.Outcome State Fault Refusal :=
  complete .next (s.setV x (s.readV x ||| s.readV y))

/-- `AND Vx, Vy` (R72): VF is not reset. -/
def execAndReg (x y : Reg) (s : State) : Host.Outcome State Fault Refusal :=
  complete .next (s.setV x (s.readV x &&& s.readV y))

/-- `XOR Vx, Vy` (R73): VF is not reset. -/
def execXorReg (x y : Reg) (s : State) : Host.Outcome State Fault Refusal :=
  complete .next (s.setV x (s.readV x ^^^ s.readV y))

/-- `ADD Vx, Vy` (R74): VF takes the carry. -/
def execAddReg (x y : Reg) (s : State) : Host.Outcome State Fault Refusal :=
  complete .next (s.setFlagThenV (carryFlag (s.readV x) (s.readV y)) x (s.readV x + s.readV y))

/-- `SUB Vx, Vy` (R75): Vx - Vy, VF takes NOT borrow. -/
def execSub (x y : Reg) (s : State) : Host.Outcome State Fault Refusal :=
  complete .next (s.setFlagThenV (notBorrowFlag (s.readV x) (s.readV y)) x (s.readV x - s.readV y))

/-- `SUBN Vx, Vy` (R76): Vy - Vx, VF takes NOT borrow. -/
def execSubn (x y : Reg) (s : State) : Host.Outcome State Fault Refusal :=
  complete .next (s.setFlagThenV (notBorrowFlag (s.readV y) (s.readV x)) x (s.readV y - s.readV x))

/-- `SHR Vx {, Vy}` (R77): Vx in place; Vy is never read. -/
def execShr (x _y : Reg) (s : State) : Host.Outcome State Fault Refusal :=
  complete .next (s.setFlagThenV (shiftedOutRight (s.readV x)) x (s.readV x >>> 1))

/-- `SHL Vx {, Vy}` (R78): Vx in place; Vy is never read. -/
def execShl (x _y : Reg) (s : State) : Host.Outcome State Fault Refusal :=
  complete .next (s.setFlagThenV (shiftedOutLeft (s.readV x)) x (s.readV x <<< 1))

/-- `RND Vx, byte` (R79): a free draw ANDed with the immediate (DESIGN CHOICE, log entry 1). -/
def execRnd (x : Reg) (kk : Byte) (s : State) : Host.Outcome State Fault Refusal :=
  complete .next (s.draw.2.setV x (s.draw.1 &&& kk))

end Sys2Proof.Machine
end

