-- ==== Sys2Proof/Machine/ControlFlow.lean ====
section
/-! DEFINITION. Control flow (spec/41_control_flow.md): RET, JP, CALL, the compare skips, JP V0. -/

namespace Sys2Proof.Machine

/-- `RET` (R59): the popped address is the CALL's, so the signal is NEXT (R56). -/
def execRet (s : State) : Host.Outcome State Fault Refusal :=
  match s.pop with
  | none => raiseIn .ret .stackUnderflow s.pc s
  | some (a, t) => complete .next (t.setPc a)

/-- A jump of instruction `i` to target `t`, checked before PC is written (R58). -/
def jumpTo (i : Instr) (t : Nat) (s : State) : Host.Outcome State Fault Refusal :=
  if targetOk t then complete .none (s.setPc (BitVec.ofNat 16 t))
  else raiseIn i .addressError (BitVec.ofNat 16 t) s

/-- `JP addr` (R60). -/
def execJp (nnn : Word) (s : State) : Host.Outcome State Fault Refusal :=
  jumpTo (.jp nnn) (directTarget nnn) s

/-- `CALL addr` (R61): the target is checked first, then the stack; the address of the CALL itself is pushed. -/
def execCall (nnn : Word) (s : State) : Host.Outcome State Fault Refusal :=
  if targetOk (directTarget nnn) then
    match s.push s.pc with
    | none => raiseIn (.call nnn) .stackOverflow s.pc s
    | some t => complete .none (t.setPc nnn)
  else raiseIn (.call nnn) .addressError nnn s

/-- `SE Vx, byte` (R62). -/
def execSeImm (x : Reg) (kk : Byte) (s : State) : Host.Outcome State Fault Refusal :=
  complete (skipIf (s.readV x == kk)) s

/-- `SNE Vx, byte` (R63). -/
def execSneImm (x : Reg) (kk : Byte) (s : State) : Host.Outcome State Fault Refusal :=
  complete (skipIf (s.readV x != kk)) s

/-- `SE Vx, Vy` (R64). -/
def execSeReg (x y : Reg) (s : State) : Host.Outcome State Fault Refusal :=
  complete (skipIf (s.readV x == s.readV y)) s

/-- `SNE Vx, Vy` (R65). -/
def execSneReg (x y : Reg) (s : State) : Host.Outcome State Fault Refusal :=
  complete (skipIf (s.readV x != s.readV y)) s

/-- `JP V0, addr` (R66). -/
def execJpV0 (nnn : Word) (s : State) : Host.Outcome State Fault Refusal :=
  jumpTo (.jpV0 nnn) (offsetTarget s nnn) s

end Sys2Proof.Machine
end

