-- ==== Sys2Proof/Machine/Display.lean ====
section
/-! DEFINITION. The framebuffer instructions (spec/44_display.md). -/

namespace Sys2Proof.Machine

/-- `CLS` (R86): every cell clear, and the draw flag set (decision D17). -/
def execCls (s : State) : Host.Outcome State Fault Refusal :=
  complete .next (s.setScreen Framebuffer.blank true)

/-- `DRW Vx, Vy, nibble` (R87): both coordinates are read before VF takes the collision. With `n = 0` nothing is
read or drawn and VF is 0 (decision D26). -/
def execDrw (x y : Reg) (n : Nat) (s : State) : Host.Outcome State Fault Refusal :=
  match s.memRead (indexAddr s) n with
  | none => raiseIn (.drw x y n) .boundsError s.i s
  | some rows =>
    let drawn := drawSprite s (s.readV x).toNat (s.readV y).toNat rows
    complete .next (drawn.2.setV vf drawn.1)

end Sys2Proof.Machine
end

