-- ==== Sys2Proof/Machine/IndexMemory.lean ====
section
/-! DEFINITION. The index register and memory transfers (spec/43_index_memory.md). -/

namespace Sys2Proof.Machine

/-- `LD I, addr` (R80). -/
def execLdI (nnn : Word) (s : State) : Host.Outcome State Fault Refusal :=
  complete .next (s.setI nnn)

/-- `ADD I, Vx` (R81): no flag and no range check. -/
def execAddI (x : Reg) (s : State) : Host.Outcome State Fault Refusal :=
  complete .next (s.setI (indexPlus s x))

/-- `LD F, Vx` (R82). -/
def execLdF (x : Reg) (s : State) : Host.Outcome State Fault Refusal :=
  complete .next (s.setI (glyphAddr (s.readV x)))

/-- `LD B, Vx` (R83): I is not changed. -/
def execLdB (x : Reg) (s : State) : Host.Outcome State Fault Refusal :=
  match s.memWrite (indexAddr s) (bcdDigits (s.readV x)) with
  | none => raiseIn (.ldB x) .boundsError s.i s
  | some t => complete .next t

/-- `LD [I], Vx` (R84): I advances by x + 1. -/
def execLdMemVx (x : Reg) (s : State) : Host.Outcome State Fault Refusal :=
  match s.memWrite (indexAddr s) (s.firstV (blockCount x)) with
  | none => raiseIn (.ldMemVx x) .boundsError s.i s
  | some t => complete .next (t.setI (indexAfterBlock s x))

/-- `LD Vx, [I]` (R85): I advances by x + 1. -/
def execLdVxMem (x : Reg) (s : State) : Host.Outcome State Fault Refusal :=
  match s.memRead (indexAddr s) (blockCount x) with
  | none => raiseIn (.ldVxMem x) .boundsError s.i s
  | some bytes => complete .next ((s.loadBlock 0 bytes).setI (indexAfterBlock s x))

end Sys2Proof.Machine
end

