-- ==== Sys2Proof/Machine/KeysTimers.lean ====
section
/-! DEFINITION. Keyboard and timer instructions (spec/45_timers_keys.md). -/

namespace Sys2Proof.Machine

/-- `SKP Vx` (R90). -/
def execSkp (x : Reg) (s : State) : Host.Outcome State Fault Refusal :=
  match keyOperand (s.readV x) with
  | none => raiseIn (.skp x) .boundsError ((s.readV x).zeroExtend 16) s
  | some k => complete (skipIf (s.keyPressed k)) s

/-- `SKNP Vx` (R91). -/
def execSknp (x : Reg) (s : State) : Host.Outcome State Fault Refusal :=
  match keyOperand (s.readV x) with
  | none => raiseIn (.sknp x) .boundsError ((s.readV x).zeroExtend 16) s
  | some k => complete (skipIf (!s.keyPressed k)) s

/-- `LD Vx, DT` (R92). -/
def execLdVxDt (x : Reg) (s : State) : Host.Outcome State Fault Refusal :=
  complete .next (s.setV x s.dt)

/-- `LD DT, Vx` (R93). -/
def execLdDtVx (x : Reg) (s : State) : Host.Outcome State Fault Refusal :=
  complete .next (s.setDt (s.readV x))

/-- `LD ST, Vx` (R94). -/
def execLdStVx (x : Reg) (s : State) : Host.Outcome State Fault Refusal :=
  complete .next (s.setSt (s.readV x))

/-- `LD Vx, K` (R95): with no key pressed PC stays and the same word runs again at the next Step; else the least
pressed key (decision D12). -/
def execLdVxK (x : Reg) (s : State) : Host.Outcome State Fault Refusal :=
  match s.leastKey with
  | none => complete .none s
  | some k => complete .next (s.setV x (BitVec.ofNat 8 k))

end Sys2Proof.Machine
end

