-- ==== Sys2Proof/Machine/Cycle.lean ====
section
/-! DEFINITION. One Step (spec/40_cycle.md R50 to R53) in the order of checks of spec/60_exceptions.md R99. -/

namespace Sys2Proof.Machine

/-- Decode and execute a fetched word (R50, R53). The sentinel 0x0000 ends the run before decode (R52); an `UNKNOWN`
word raises `UnknownOpcode` (R53). -/
def decodeAndExec (w : Word) (s : State) : Host.Outcome State Fault Refusal :=
  if w = 0x0000#16 then .next s.endRun
  else match decodeWord w with
    | none => .next (s.raise .unknownOpcode (some w) w)
    | some i => exec i s

/-- Fetch, decode, execute, advance in a RUNNING machine (R50, R52). -/
def runCycle (s : State) : Host.Outcome State Fault Refusal :=
  match s.fetchWord with
  | none => .next (s.raise .boundsError none s.pc)
  | some w => decodeAndExec w s

/-- The Step (R50). In ENDED and FAULTED it changes nothing (R51, decision D27). -/
def cycle (s : State) : Host.Outcome State Fault Refusal :=
  match s.status with
  | .running => runCycle s
  | .ended => .next s
  | .faulted => .next s

end Sys2Proof.Machine
end

