-- ==== Sys2Proof/Machine/Step.lean ====
section
/-! DEFINITION. The machine's step, and an instruction placed where the next step fetches it. -/

namespace Sys2Proof.Machine

/-- One Step (spec/40_cycle.md R50). Its draw, read by `RND` alone, is the free value of log entry 1. -/
def step (s : State) : Host.Outcome State Fault Refusal := cycle s

/-- `s` with the instruction whose bits are `w` (bits above `nbits` are 0) stored at PC, big-endian
(spec/20_memory.md R29). It stands for the load of a program from outside (DESIGN CHOICE, log entry 11). -/
def State.withFetchWord (s : State) (nbits w : Nat) : State := s.storeAtPc (BitVec.ofNat 16 (w % 2 ^ nbits))

end Sys2Proof.Machine
end

