-- ==== Sys2Proof/Machine/Transactions.lean ====
section
/-! DEFINITION. The host's atomic transactions and the read ports (spec/60_exceptions.md R103 to R106,
spec/70_reset_and_hazards.md R109). Each is a whole transition between Steps; every interleaving of them is admitted
(DESIGN CHOICE, log entry 8). -/

namespace Sys2Proof.Machine

/-- A timer decremented by 1 if it is non-zero (R103). -/
def countDown (b : Byte) : Byte := if b = 0#8 then 0#8 else b - 1#8

/-- `Tick` (R103), in every status (decision D19). -/
def State.tick (s : State) : State := (s.setDt (countDown s.dt)).setSt (countDown s.st)

/-- `key[k] <- b` (R104). -/
def State.setKey (s : State) (k : Key) (b : Bool) : State := { s with keys := s.keys.set k.val b }

/-- `KeyDown(k)` (R104). -/
def State.keyDown (s : State) (k : Key) : State := s.setKey k true

/-- `KeyUp(k)` (R104). -/
def State.keyUp (s : State) (k : Key) : State := s.setKey k false

/-- `ClearDrawFlag` (R105). -/
def State.clearDrawFlag (s : State) : State := s.setScreen s.fb false

/-- What LoadImage returns (R106). -/
inductive LoadResult where
  | ok
  | tooLarge
deriving DecidableEq, Repr

/-- `LoadImage(bytes)` (R106): nothing is written where the image is too large. -/
def State.loadImage (s : State) (bytes : List Byte) : LoadResult × State :=
  if bytes.length > Config.imageMax then (.tooLarge, s)
  else (.ok, { s with mem := s.mem.writeBytes Config.entry bytes })

/-- The transactions that may change the CORE (R105). -/
inductive Transaction where
  | reset
  | loadImage (bytes : List Byte)
  | step
  | tick
  | keyDown (k : Key)
  | keyUp (k : Key)
  | clearDrawFlag
deriving DecidableEq, Repr

/-- The state after a transaction (R105). -/
def transact : Transaction → State → Host.Outcome State Fault Refusal
  | .reset, s => .next s.applyReset
  | .loadImage bytes, s => .next (s.loadImage bytes).2
  | .step, s => Sys2Proof.Machine.step s
  | .tick, s => .next s.tick
  | .keyDown k, s => .next (s.keyDown k)
  | .keyUp k, s => .next (s.keyUp k)
  | .clearDrawFlag, s => .next s.clearDrawFlag

/-! ### Read ports: a read changes no state (R105) -/

/-- The 2048 cells of the framebuffer; cell (x, y) is element `y * 64 + x` (R105, decision D16). -/
def State.fbPort (s : State) : Vector Bool (32 * 64) := s.fb.flatten

/-- The draw flag (R105). -/
def State.drawFlagPort (s : State) : Bool := s.drawFlag

/-- The sound timer (R105). -/
def State.soundPort (s : State) : Byte := s.st

/-- The code of a run state (spec/10_state.md R23, R24; decision D2). -/
def statusCode : Status → BitVec 2
  | .running => 0#2
  | .ended => 1#2
  | .faulted => 2#2

/-- The code of a runtime error (R97; decision D2). -/
def faultKindCode : FaultKind → BitVec 3
  | .stackUnderflow => 1#3
  | .stackOverflow => 2#3
  | .addressError => 3#3
  | .unknownOpcode => 4#3
  | .boundsError => 5#3

/-- The status port (R105). -/
def State.statusPort (s : State) : BitVec 2 := statusCode s.status

/-- The `kind` field of the fault port: 0 for none (R24, R97). -/
def State.faultCodePort (s : State) : BitVec 3 :=
  match s.fault with
  | none => 0#3
  | some f => faultKindCode f.kind

/-- The whole fault port: the record, or none (R105). -/
def State.faultPort (s : State) : Option FaultRecord := s.fault

/-- SP's five bits (R24). -/
def State.spBits (s : State) : BitVec 5 := BitVec.ofNat 5 s.sp.val

end Sys2Proof.Machine
end

