-- ==== Sys2Proof/Safety.lean ====
section
/-! DEFINITION. The terms claims are stated in: the parts of the state and what leaves them unchanged, the end of a
run (spec/60_exceptions.md R107), the invariant of the machine, and the cells a sprite covers (spec/44_display.md
R87). -/

namespace Sys2Proof.Machine

/-- One part of the state, down to one register, one stack slot, one cell, one key and one byte of memory. -/
inductive Part where
  | v (r : Reg)
  | i
  | pc
  | stack (j : Fin 16)
  | sp
  | dt
  | st
  | cell (x : Fin 64) (y : Fin 32)
  | drawFlag
  | key (k : Key)
  | status
  | fault
  | byte (a : Nat)
  | draws
deriving DecidableEq, Repr

/-- A part has the same value in two states. -/
def Part.same (s t : State) : Part → Prop
  | .v r => t.readV r = s.readV r
  | .i => t.i = s.i
  | .pc => t.pc = s.pc
  | .stack j => t.stack[j.val] = s.stack[j.val]
  | .sp => t.sp = s.sp
  | .dt => t.dt = s.dt
  | .st => t.st = s.st
  | .cell x y => t.fb.cell x.val y.val = s.fb.cell x.val y.val
  | .drawFlag => t.drawFlag = s.drawFlag
  | .key k => t.keyPressed k = s.keyPressed k
  | .status => t.status = s.status
  | .fault => t.fault = s.fault
  | .byte a => t.mem.read a = s.mem.read a
  | .draws => t.drawCount = s.drawCount

/-- From `s` to `t` every part is unchanged except those in `but`. -/
def UnchangedBut (but : Part → Prop) (s t : State) : Prop := ∀ p, ¬ but p → Part.same s t p

/-- From `s` to `t` every part is unchanged except the listed ones. -/
def OnlyChanges (but : List Part) (s t : State) : Prop := UnchangedBut (fun p => p ∈ but) s t

/-- The outcome is a next state, and that state meets `P`. -/
def Completes (o : Host.Outcome State Fault Refusal) (P : State → Prop) : Prop := ∃ t, o = .next t ∧ P t

/-- The outcome is `s` with a runtime error taken: the status and the record are written and every other part is
unchanged (R98, decision D10). -/
def Faults (o : Host.Outcome State Fault Refusal) (s : State) (f : FaultRecord) : Prop :=
  Completes o fun t => t.status = .faulted ∧ t.fault = some f ∧ OnlyChanges [.status, .fault] s t

/-- The two bytes at PC are the word of instruction `i`. -/
def State.Fetches (s : State) (i : Instr) : Prop := ∃ w, s.fetchWord = some w ∧ decodeWord w = some i

/-- A run has ended: the program reached a 0x0000 word or raised a runtime error (R107). -/
def State.runOver (s : State) : Prop := s.status = .ended ∨ s.status = .faulted

/-- The invariant of the machine. Memory is in canonical form; PC is at most 0x1002 (spec/40_cycle.md R55); every
return address in use is the address of a fetched CALL (spec/41_control_flow.md R59); a fault is recorded exactly when
the status is FAULTED, and its `pc` is the PC left in the register (R97). -/
structure State.Inv (s : State) : Prop where
  memWf : s.mem.wf
  pcBound : s.pc.toNat ≤ 0x1002
  slots : ∀ j : Fin 16, j.val < s.sp.val → s.stack[j.val].toNat ≤ 0xFFE
  faultIff : s.status = .faulted ↔ s.fault.isSome = true
  faultPc : ∀ f, s.fault = some f → f.pc = s.pc

/-- The sprite of `n` rows at I, drawn at (Vx, Vy), has a set bit over cell (px, py): row `r`, column `c` lies there,
wrapped at both edges, and bit `7 - c` of the byte at `I + r` is 1 (R87). -/
def SpriteCovers (s : State) (x y : Reg) (n : Nat) (px : Fin 64) (py : Fin 32) : Prop :=
  ∃ r c : Nat, r < n ∧ c < 8 ∧ ((s.readV x).toNat + c) % 64 = px.val ∧ ((s.readV y).toNat + r) % 32 = py.val ∧
    (s.mem.read (s.i.toNat + r)).getLsbD (7 - c) = true

end Sys2Proof.Machine
end

