-- ==== Sys2Proof/Certificates/Slice0/Obligations.lean ====
section
/-! DEFINITION. The statements for the provers, from the numbered rules of spec/. The words written out are those of
the rules; for 28 of the instructions their nibble values are the spec's general knowledge (log entry 5). `Dn` is a
decision of spec/92_eei_decisions.md, which is the spec's own choice; a statement that rests on one names it. -/

open Sys2Proof Sys2Proof.Machine

/-! ### Encoding and decoding -/

/-- Words written out from the opcode map (spec/30_encoding.md section 4), the six of the source among them, at least
one per format and family. The nibble values of the others are the spec's general knowledge (log entry 5). -/
def Obligations.OpcodeMapWordsDecode : Prop :=
  decodeWord 0x00E0#16 = some .cls ∧ decodeWord 0x00EE#16 = some .ret ∧
  decodeWord 0x6005#16 = some (.ldImm 0x0 0x05#8) ∧ decodeWord 0x7003#16 = some (.addImm 0x0 0x03#8) ∧
  decodeWord 0xA300#16 = some (.ldI 0x300#16) ∧ decodeWord 0xF055#16 = some (.ldMemVx 0x0) ∧
  decodeWord 0x1208#16 = some (.jp 0x208#16) ∧ decodeWord 0x5125#16 = some (.seReg 0x1 0x2) ∧
  decodeWord 0x8F17#16 = some (.subn 0xF 0x1) ∧ decodeWord 0xD12F#16 = some (.drw 0x1 0x2 15) ∧
  decodeWord 0xE1A1#16 = some (.sknp 0x1) ∧ decodeWord 0xF30A#16 = some (.ldVxK 0x3)

/-- Decoding the bytes of any well-formed instruction, whatever bytes follow, gives that instruction with every operand
and leaves the bytes that follow (spec/30_encoding.md sections 3 and 4, spec/20_memory.md section 2). -/
def Obligations.DecodeInvertsEncode : Prop :=
  ∀ (i : Instr) (rest : List Byte), i.wellFormed = true → decode (encodeBytes i ++ rest) = .ok (i, rest)

/-- What the decoder gives is well formed. -/
def Obligations.DecodedInstructionsAreWellFormed : Prop :=
  ∀ (w : Word) (i : Instr), decodeWord w = some i → i.wellFormed = true

/-- Encoding a decoded instruction gives its word back; in the 5 and 9 families the ignored nibble 4 comes back as 0
(log entry 6). -/
def Obligations.EncodeInvertsDecode : Prop :=
  ∀ (w : Word) (i : Instr), decodeWord w = some i →
    (encode i).toNat =
      if nibble1 w = 0x5#4 ∨ nibble1 w = 0x9#4 then w.toNat / 0x10 * 0x10 else w.toNat

/-- R45: in a family picked by the high nibble alone, two words of the same high nibble are the same row of the opcode
table, and no word is UNKNOWN; in the 5 and 9 families nibble 4 makes no difference. -/
def Obligations.HighNibbleFamiliesIgnoreTheRest : Prop :=
  (∀ w u : Word, nibble1 w = nibble1 u → nibble1 w ≠ 0x0#4 → nibble1 w ≠ 0x8#4 → nibble1 w ≠ 0xE#4 →
    nibble1 w ≠ 0xF#4 →
    decodeWord w ≠ none ∧ (decodeWord w).map opcodeRow = (decodeWord u).map opcodeRow) ∧
  (∀ (x y : Reg) (n : Fin 16),
    decodeWord (BitVec.ofNat 16 (0x5000 + 0x100 * x.val + 0x10 * y.val + n.val)) = some (.seReg x y) ∧
    decodeWord (BitVec.ofNat 16 (0x9000 + 0x100 * x.val + 0x10 * y.val + n.val)) = some (.sneReg x y))

/-- Exactly these words map to UNKNOWN (spec/30_encoding.md section 5; decision D3 for the 0 family, in which 0x0000
is caught at fetch). -/
def Obligations.IllegalWordsAreExactlyThese : Prop :=
  ∀ w : Word, decodeWord w = none ↔
    (w.toNat ≤ 0x0FFF ∧ w.toNat ≠ 0x00E0 ∧ w.toNat ≠ 0x00EE) ∨
    (w.toNat / 0x1000 = 0x8 ∧ w.toNat % 0x10 ∈ [0x8, 0x9, 0xA, 0xB, 0xC, 0xD, 0xF]) ∨
    (w.toNat / 0x1000 = 0xE ∧ w.toNat % 0x100 ∉ [0x9E, 0xA1]) ∨
    (w.toNat / 0x1000 = 0xF ∧ w.toNat % 0x100 ∉ [0x07, 0x0A, 0x15, 0x18, 0x1E, 0x29, 0x33, 0x55, 0x65])

/-! ### The Step -/

/-- A Step of a RUNNING machine whose two bytes at PC decode to `i` is `exec` of `i` at the same state. The PC advance
is part of `exec`; the Step adds nothing around it (spec/40_cycle.md section 1). -/
def Obligations.StepRunsTheDecodedInstruction : Prop :=
  ∀ (s : State) (i : Instr), s.status = .running → s.pc.toNat ≤ 0xFFE →
    decode [s.mem.read s.pc.toNat, s.mem.read (s.pc.toNat + 1)] = .ok (i, []) → step s = exec i s

/-- R53: the handler of the canonical identifier is invoked; a word with no handler raises UnknownOpcode with PC at
the word and every other part unchanged. -/
def Obligations.HandlerLookupOrUnknownOpcode : Prop :=
  ∀ (s : State) (w : Word), s.status = .running → s.pc.toNat ≤ 0xFFE →
    w.toNat = (s.mem.read s.pc.toNat).toNat * 0x100 + (s.mem.read (s.pc.toNat + 1)).toNat → w ≠ 0x0000#16 →
    (∀ i, decodeWord w = some i → step s = exec i s) ∧
    (decodeWord w = none → Faults (step s) s ⟨.unknownOpcode, s.pc, some w, w⟩)

/-- A fetch whose second byte lies beyond 0xFFF raises BoundsError with no word and info PC (spec/40_cycle.md
section 2; decisions D4 and D6). -/
def Obligations.FetchBeyondMemoryRaisesBoundsError : Prop :=
  ∀ s : State, s.status = .running → s.pc.toNat > 0xFFE → Faults (step s) s ⟨.boundsError, s.pc, none, s.pc⟩

/-- Two zero bytes at PC end the run: status ENDED, PC and everything else unchanged (spec/40_cycle.md section 2;
decision D11). -/
def Obligations.ZeroWordEndsTheRun : Prop :=
  ∀ s : State, s.status = .running → s.pc.toNat ≤ 0xFFE → s.mem.read s.pc.toNat = 0#8 →
    s.mem.read (s.pc.toNat + 1) = 0#8 →
    Completes (step s) fun t => t.status = .ended ∧ OnlyChanges [.status] s t

/-- A Step in ENDED or FAULTED changes nothing (spec/40_cycle.md section 1; decision D27). -/
def Obligations.TerminalStatesStay : Prop := ∀ s : State, s.runOver → step s = .next s

/-- No Step and no instruction stops the model: each answers a next state, in every state. -/
def Obligations.EveryStepAnswersANextState : Prop :=
  (∀ s : State, ∃ t, step s = .next t) ∧ (∀ (i : Instr) (s : State), ∃ t, exec i s = .next t)

/-- R96: how the run status moves. -/
def Obligations.StatusMovesOnlyAsListed : Prop :=
  (∀ s : State, s.applyReset.status = .running) ∧
  (∀ s t : State, s.status = .running → step s = .next t →
    (s.fetchWord = some 0x0000#16 → t.status = .ended) ∧
    (s.fetchWord ≠ some 0x0000#16 →
      (t.status = .faulted ∧ ∃ f, t.fault = some f ∧ f.pc = s.pc) ∨
      (t.status = .running ∧ t.fault = s.fault))) ∧
  (∀ s : State, s.runOver → step s = .next s) ∧
  (∀ (x : Transaction) (s t : State), x ≠ .reset → x ≠ .step → transact x s = .next t → t.status = s.status)

/-- A Step that ends FAULTED has recorded the PC of its instruction and the fetched word (none for a fetch fault), and
changed nothing but the status and the record (spec/60_exceptions.md sections 2 and 3; decision D10). -/
def Obligations.RuntimeErrorsArePrecise : Prop :=
  ∀ s t : State, s.status = .running → step s = .next t → t.status = .faulted →
    OnlyChanges [.status, .fault] s t ∧ ∃ f, t.fault = some f ∧ f.pc = s.pc ∧ f.word = s.fetchWord

/-- Each kind of runtime error has the cause and the info of the table of spec/60_exceptions.md section 2
(decisions D3 to D7, D24, D25). -/
def Obligations.EachFaultKindHasItsCause : Prop :=
  ∀ (s t : State) (f : FaultRecord), s.status = .running → step s = .next t → t.status = .faulted →
    t.fault = some f →
    match f.kind with
    | .stackUnderflow => s.Fetches .ret ∧ s.sp.val = 0 ∧ f.info = s.pc
    | .stackOverflow => (∃ nnn : Word, s.Fetches (.call nnn) ∧ 0x200 ≤ nnn.toNat) ∧ s.sp.val = 16 ∧ f.info = s.pc
    | .addressError =>
      (∃ nnn : Word, (s.Fetches (.jp nnn) ∨ s.Fetches (.call nnn)) ∧ nnn.toNat < 0x200 ∧ f.info = nnn) ∨
      (∃ nnn : Word, s.Fetches (.jpV0 nnn) ∧ f.info.toNat = (s.readV 0).toNat + nnn.toNat ∧
        (f.info.toNat < 0x200 ∨ f.info.toNat > 0xFFF))
    | .unknownOpcode => s.fetchWord = some f.info ∧ f.info ≠ 0x0000#16 ∧ decodeWord f.info = none
    | .boundsError =>
      (s.fetchWord = none ∧ f.info = s.pc) ∨
      (∃ x y n, s.Fetches (.drw x y n) ∧ 0 < n ∧ s.i.toNat + n - 1 > 0xFFF ∧ f.info = s.i) ∨
      (∃ x, s.Fetches (.ldB x) ∧ s.i.toNat + 2 > 0xFFF ∧ f.info = s.i) ∨
      (∃ x : Reg, (s.Fetches (.ldMemVx x) ∨ s.Fetches (.ldVxMem x)) ∧ s.i.toNat + x.val > 0xFFF ∧ f.info = s.i) ∨
      (∃ x : Reg, (s.Fetches (.skp x) ∨ s.Fetches (.sknp x)) ∧ (s.readV x).toNat > 0xF ∧
        f.info.toNat = (s.readV x).toNat)

/-- The PC after a Step that completes an instruction: a jump's target, the popped address + 2, PC + 2 or PC + 4 for a
skip, PC + 0 or PC + 2 for the key wait, and PC + 2 for every other instruction (spec/40_cycle.md section 4, the
property that section marks as derived; C8 of spec/90_conflicts.md for the delta 0; D8 for RET). -/
def Obligations.PcAfterACompletedStep : Prop :=
  ∀ (s t : State) (i : Instr), s.status = .running → s.Fetches i → step s = .next t → t.status = .running →
    match i with
    | .jp nnn => t.pc = nnn
    | .call nnn => t.pc = nnn
    | .jpV0 nnn => t.pc.toNat = (s.readV 0).toNat + nnn.toNat
    | .ret => ∃ j : Fin 16, j.val + 1 = s.sp.val ∧ t.pc = s.stack[j.val] + 2#16
    | .seImm _ _ | .sneImm _ _ | .seReg _ _ | .sneReg _ _ | .skp _ | .sknp _ =>
      t.pc.toNat = s.pc.toNat + 2 ∨ t.pc.toNat = s.pc.toNat + 4
    | .ldVxK _ => t.pc = s.pc ∨ t.pc.toNat = s.pc.toNat + 2
    | _ => t.pc.toNat = s.pc.toNat + 2

/-! ### Reset and the invariant -/

/-- What Reset leaves, in the state right after reset and after the host's Reset in any state: PC 0x200 by the source,
every other value by decision D14, and the bytes of FONT (a parameter, log entry 3) below 0x050. -/
def Obligations.ResetLeavesTheStatedState : Prop :=
  ∀ s t : State, t = State.reset ∨ t = s.applyReset →
    t.pc = 0x200#16 ∧ (∀ r : Reg, t.readV r = 0#8) ∧ t.i = 0#16 ∧ t.sp.val = 0 ∧
    (∀ j : Fin 16, t.stack[j.val] = 0#16) ∧ t.dt = 0#8 ∧ t.st = 0#8 ∧
    (∀ (x : Fin 64) (y : Fin 32), t.fb.cell x.val y.val = false) ∧ t.drawFlag = false ∧
    (∀ k : Key, t.keyPressed k = false) ∧ t.status = .running ∧ t.fault = none ∧
    (∀ a : Nat, a < 0x50 → font[a]? = some (t.mem.read a)) ∧ (∀ a : Nat, 0x50 ≤ a → t.mem.read a = 0#8)

/-- The state after reset meets the invariant. -/
def Obligations.ResetMeetsTheInvariant : Prop := State.reset.Inv

/-- Every Step keeps the invariant: the canonical form of memory, PC at most 0x1002, every return address in use the
address of a fetchable CALL, and a fault recorded at PC exactly in FAULTED. -/
def Obligations.StepKeepsTheInvariant : Prop := ∀ s t : State, s.Inv → step s = .next t → t.Inv

/-- Every host transaction keeps the invariant, in any order and number (spec/60_exceptions.md section 9). -/
def Obligations.TransactionsKeepTheInvariant : Prop :=
  ∀ (x : Transaction) (s t : State), s.Inv → transact x s = .next t → t.Inv

/-! ### Register file and ALU (spec/42_alu.md) -/

/-- R68, `LD Vx, byte`. -/
def Obligations.LoadImmediateWritesVx : Prop :=
  ∀ (s : State) (x : Reg) (kk : Byte),
    decodeWord (BitVec.ofNat 16 (0x6000 + 0x100 * x.val + kk.toNat)) = some (.ldImm x kk) ∧
    Completes (exec (.ldImm x kk) s) fun t =>
      t.readV x = kk ∧ t.pc = s.pc + 2#16 ∧ OnlyChanges [.v x, .pc] s t

/-- R69, `ADD Vx, byte`: the sum mod 256 and no flag. -/
def Obligations.AddImmediateWrapsWithoutFlag : Prop :=
  ∀ (s : State) (x : Reg) (kk : Byte),
    decodeWord (BitVec.ofNat 16 (0x7000 + 0x100 * x.val + kk.toNat)) = some (.addImm x kk) ∧
    Completes (exec (.addImm x kk) s) fun t =>
      (t.readV x).toNat = ((s.readV x).toNat + kk.toNat) % 256 ∧ t.pc = s.pc + 2#16 ∧
      OnlyChanges [.v x, .pc] s t

/-- R70 to R73, `LD Vx, Vy`, `OR`, `AND`, `XOR`: VF is not reset. -/
def Obligations.MoveAndLogicWriteVxAlone : Prop :=
  ∀ (s : State) (x y : Reg),
    (decodeWord (BitVec.ofNat 16 (0x8000 + 0x100 * x.val + 0x10 * y.val)) = some (.ldReg x y) ∧
      Completes (exec (.ldReg x y) s) fun t =>
        t.readV x = s.readV y ∧ t.pc = s.pc + 2#16 ∧ OnlyChanges [.v x, .pc] s t) ∧
    (decodeWord (BitVec.ofNat 16 (0x8001 + 0x100 * x.val + 0x10 * y.val)) = some (.orReg x y) ∧
      Completes (exec (.orReg x y) s) fun t =>
        (∀ b < 8, (t.readV x).getLsbD b = ((s.readV x).getLsbD b || (s.readV y).getLsbD b)) ∧
        t.pc = s.pc + 2#16 ∧ OnlyChanges [.v x, .pc] s t) ∧
    (decodeWord (BitVec.ofNat 16 (0x8002 + 0x100 * x.val + 0x10 * y.val)) = some (.andReg x y) ∧
      Completes (exec (.andReg x y) s) fun t =>
        (∀ b < 8, (t.readV x).getLsbD b = ((s.readV x).getLsbD b && (s.readV y).getLsbD b)) ∧
        t.pc = s.pc + 2#16 ∧ OnlyChanges [.v x, .pc] s t) ∧
    (decodeWord (BitVec.ofNat 16 (0x8003 + 0x100 * x.val + 0x10 * y.val)) = some (.xorReg x y) ∧
      Completes (exec (.xorReg x y) s) fun t =>
        (∀ b < 8, (t.readV x).getLsbD b = ((s.readV x).getLsbD b ^^ (s.readV y).getLsbD b)) ∧
        t.pc = s.pc + 2#16 ∧ OnlyChanges [.v x, .pc] s t)

/-- R74, `ADD Vx, Vy`: the sum mod 256, and the carry in VF. With x = 0xF the sum stands and not the carry; both
operands are those before the instruction (R74's own pseudocode; the spec decides it in D9). -/
def Obligations.AddSetsCarry : Prop :=
  ∀ (s : State) (x y : Reg),
    decodeWord (BitVec.ofNat 16 (0x8004 + 0x100 * x.val + 0x10 * y.val)) = some (.addReg x y) ∧
    Completes (exec (.addReg x y) s) fun t =>
      (t.readV x).toNat = ((s.readV x).toNat + (s.readV y).toNat) % 256 ∧
      (x ≠ vf → (t.readV vf).toNat = if (s.readV x).toNat + (s.readV y).toNat > 255 then 1 else 0) ∧
      t.pc = s.pc + 2#16 ∧ OnlyChanges [.v x, .v vf, .pc] s t

/-- R75 and R76, `SUB` and `SUBN`: the difference mod 256, and NOT borrow in VF. With x = 0xF the difference stands
(the rules' own pseudocode; the spec decides it in D9). -/
def Obligations.SubtractSetsNotBorrow : Prop :=
  ∀ (s : State) (x y : Reg),
    (decodeWord (BitVec.ofNat 16 (0x8005 + 0x100 * x.val + 0x10 * y.val)) = some (.sub x y) ∧
      Completes (exec (.sub x y) s) fun t =>
        (t.readV x).toNat = ((s.readV x).toNat + 256 - (s.readV y).toNat) % 256 ∧
        (x ≠ vf → (t.readV vf).toNat = if (s.readV x).toNat ≥ (s.readV y).toNat then 1 else 0) ∧
        t.pc = s.pc + 2#16 ∧ OnlyChanges [.v x, .v vf, .pc] s t) ∧
    (decodeWord (BitVec.ofNat 16 (0x8007 + 0x100 * x.val + 0x10 * y.val)) = some (.subn x y) ∧
      Completes (exec (.subn x y) s) fun t =>
        (t.readV x).toNat = ((s.readV y).toNat + 256 - (s.readV x).toNat) % 256 ∧
        (x ≠ vf → (t.readV vf).toNat = if (s.readV y).toNat ≥ (s.readV x).toNat then 1 else 0) ∧
        t.pc = s.pc + 2#16 ∧ OnlyChanges [.v x, .v vf, .pc] s t)

/-- R77 and R78, `SHR` and `SHL`: Vx shifted by one in place, whatever Vy is, and the bit shifted out in VF. With
x = 0xF the shifted value stands (the rules' own pseudocode; the spec decides it in D9). -/
def Obligations.ShiftsMoveOneBitOut : Prop :=
  ∀ (s : State) (x y : Reg),
    (decodeWord (BitVec.ofNat 16 (0x8006 + 0x100 * x.val + 0x10 * y.val)) = some (.shr x y) ∧
      Completes (exec (.shr x y) s) fun t =>
        (t.readV x).toNat = (s.readV x).toNat / 2 ∧
        (x ≠ vf → (t.readV vf).toNat = (s.readV x).toNat % 2) ∧
        t.pc = s.pc + 2#16 ∧ OnlyChanges [.v x, .v vf, .pc] s t) ∧
    (decodeWord (BitVec.ofNat 16 (0x800E + 0x100 * x.val + 0x10 * y.val)) = some (.shl x y) ∧
      Completes (exec (.shl x y) s) fun t =>
        (t.readV x).toNat = (s.readV x).toNat * 2 % 256 ∧
        (x ≠ vf → (t.readV vf).toNat = (s.readV x).toNat / 128) ∧
        t.pc = s.pc + 2#16 ∧ OnlyChanges [.v x, .v vf, .pc] s t)

/-- `RND Vx, byte`: the next free draw ANDed with the immediate, so no bit is set where kk has a 0 (spec/42_alu.md
section 6; decision D13; the draw is the model's free value of log entry 1, of which nothing is assumed). -/
def Obligations.RandomMasksAFreeDraw : Prop :=
  ∀ (s : State) (x : Reg) (kk : Byte),
    decodeWord (BitVec.ofNat 16 (0xC000 + 0x100 * x.val + kk.toNat)) = some (.rnd x kk) ∧
    Completes (exec (.rnd x kk) s) fun t =>
      t.readV x = Config.randomDraw s.drawCount &&& kk ∧
      (∀ b < 8, kk.getLsbD b = false → (t.readV x).getLsbD b = false) ∧
      t.drawCount = s.drawCount + 1 ∧ t.pc = s.pc + 2#16 ∧ OnlyChanges [.v x, .pc, .draws] s t

/-! ### Control flow (spec/41_control_flow.md) -/

/-- R62 to R65, the compare skips: PC + 4 where the condition holds, else PC + 2, and nothing else. -/
def Obligations.CompareSkips : Prop :=
  ∀ (s : State) (x y : Reg) (kk : Byte) (n : Fin 16),
    (decodeWord (BitVec.ofNat 16 (0x3000 + 0x100 * x.val + kk.toNat)) = some (.seImm x kk) ∧
      Completes (exec (.seImm x kk) s) fun t =>
        t.pc = (if (s.readV x).toNat = kk.toNat then s.pc + 4#16 else s.pc + 2#16) ∧ OnlyChanges [.pc] s t) ∧
    (decodeWord (BitVec.ofNat 16 (0x4000 + 0x100 * x.val + kk.toNat)) = some (.sneImm x kk) ∧
      Completes (exec (.sneImm x kk) s) fun t =>
        t.pc = (if (s.readV x).toNat = kk.toNat then s.pc + 2#16 else s.pc + 4#16) ∧ OnlyChanges [.pc] s t) ∧
    (decodeWord (BitVec.ofNat 16 (0x5000 + 0x100 * x.val + 0x10 * y.val + n.val)) = some (.seReg x y) ∧
      Completes (exec (.seReg x y) s) fun t =>
        t.pc = (if (s.readV x).toNat = (s.readV y).toNat then s.pc + 4#16 else s.pc + 2#16) ∧
        OnlyChanges [.pc] s t) ∧
    (decodeWord (BitVec.ofNat 16 (0x9000 + 0x100 * x.val + 0x10 * y.val + n.val)) = some (.sneReg x y) ∧
      Completes (exec (.sneReg x y) s) fun t =>
        t.pc = (if (s.readV x).toNat = (s.readV y).toNat then s.pc + 2#16 else s.pc + 4#16) ∧
        OnlyChanges [.pc] s t)

/-- `JP addr`: a target in [0x200, 0xFFF] becomes PC; any other target raises AddressError (spec/41_control_flow.md
sections 1 and 3; decision D10 for what the error leaves; C5 of spec/90_conflicts.md for targets above 0xFFF, which no
word encodes). -/
def Obligations.JumpSetsPcOrRaisesAddressError : Prop :=
  ∀ (s : State) (nnn : Word),
    (nnn.toNat ≤ 0xFFF → decodeWord (BitVec.ofNat 16 (0x1000 + nnn.toNat)) = some (.jp nnn)) ∧
    (0x200 ≤ nnn.toNat ∧ nnn.toNat ≤ 0xFFF →
      Completes (exec (.jp nnn) s) fun t => t.pc = nnn ∧ OnlyChanges [.pc] s t) ∧
    (nnn.toNat < 0x200 ∨ 0xFFF < nnn.toNat →
      Faults (exec (.jp nnn) s) s ⟨.addressError, s.pc, some (encode (.jp nnn)), nnn⟩)

/-- `CALL addr`: the target is checked first, then the stack; the CALL's own address is pushed (spec/41_control_flow.md
section 4; decisions D7, D8, D10, D24). -/
def Obligations.CallPushesItsOwnAddress : Prop :=
  ∀ (s : State) (nnn : Word),
    (nnn.toNat ≤ 0xFFF → decodeWord (BitVec.ofNat 16 (0x2000 + nnn.toNat)) = some (.call nnn)) ∧
    (∀ j : Fin 16, j.val = s.sp.val → 0x200 ≤ nnn.toNat → nnn.toNat ≤ 0xFFF →
      Completes (exec (.call nnn) s) fun t =>
        t.stack[j.val] = s.pc ∧ t.sp.val = s.sp.val + 1 ∧ t.pc = nnn ∧ OnlyChanges [.stack j, .sp, .pc] s t) ∧
    (nnn.toNat < 0x200 ∨ 0xFFF < nnn.toNat →
      Faults (exec (.call nnn) s) s ⟨.addressError, s.pc, some (encode (.call nnn)), nnn⟩) ∧
    (0x200 ≤ nnn.toNat ∧ nnn.toNat ≤ 0xFFF ∧ s.sp.val = 16 →
      Faults (exec (.call nnn) s) s ⟨.stackOverflow, s.pc, some (encode (.call nnn)), s.pc⟩)

/-- `RET`: PC is the popped address + 2; an empty stack raises StackUnderflow (spec/41_control_flow.md section 2;
decisions D8 and D10). -/
def Obligations.ReturnPopsAndAdvances : Prop :=
  ∀ s : State,
    decodeWord 0x00EE#16 = some .ret ∧
    (∀ j : Fin 16, j.val + 1 = s.sp.val →
      Completes (exec .ret s) fun t =>
        t.sp.val = j.val ∧ t.pc = s.stack[j.val] + 2#16 ∧ OnlyChanges [.sp, .pc] s t) ∧
    (s.sp.val = 0 → Faults (exec .ret s) s ⟨.stackUnderflow, s.pc, some 0x00EE#16, s.pc⟩)

/-- `JP V0, addr`: the exact sum of V0 and the address field is checked and becomes PC (spec/41_control_flow.md
section 6; decisions D10 and D25). -/
def Obligations.JumpOffsetChecksTheExactSum : Prop :=
  ∀ (s : State) (nnn : Word), nnn.toNat ≤ 0xFFF →
    decodeWord (BitVec.ofNat 16 (0xB000 + nnn.toNat)) = some (.jpV0 nnn) ∧
    (0x200 ≤ (s.readV 0).toNat + nnn.toNat ∧ (s.readV 0).toNat + nnn.toNat ≤ 0xFFF →
      Completes (exec (.jpV0 nnn) s) fun t =>
        t.pc.toNat = (s.readV 0).toNat + nnn.toNat ∧ OnlyChanges [.pc] s t) ∧
    ((s.readV 0).toNat + nnn.toNat < 0x200 ∨ 0xFFF < (s.readV 0).toNat + nnn.toNat →
      ∃ info : Word, info.toNat = (s.readV 0).toNat + nnn.toNat ∧
        Faults (exec (.jpV0 nnn) s) s ⟨.addressError, s.pc, some (encode (.jpV0 nnn)), info⟩)

/-- A CALL, and later a RET at the same stack, resume after the CALL with the stack as it was before
(spec/40_cycle.md section 4, spec/41_control_flow.md sections 2 and 4; decision D8). -/
def Obligations.CallThenReturnResumesAfterTheCall : Prop :=
  ∀ (s : State) (nnn : Word), 0x200 ≤ nnn.toNat → nnn.toNat ≤ 0xFFF → s.sp.val < 16 →
    Completes (exec (.call nnn) s) fun t =>
      ∀ u : State, u.stack = t.stack → u.sp = t.sp →
        Completes (exec .ret u) fun v =>
          v.pc = s.pc + 2#16 ∧ v.sp = s.sp ∧ ∀ j : Fin 16, j.val < s.sp.val → v.stack[j.val] = s.stack[j.val]

/-! ### Index register and memory transfers (spec/43_index_memory.md) -/

/-- R80 to R82, the writes of I: the address field, the sum mod 2^16, five times Vx with no mask. -/
def Obligations.IndexRegisterWrites : Prop :=
  (∀ (s : State) (nnn : Word), nnn.toNat ≤ 0xFFF →
    decodeWord (BitVec.ofNat 16 (0xA000 + nnn.toNat)) = some (.ldI nnn) ∧
    Completes (exec (.ldI nnn) s) fun t => t.i = nnn ∧ t.pc = s.pc + 2#16 ∧ OnlyChanges [.i, .pc] s t) ∧
  (∀ (s : State) (x : Reg),
    (decodeWord (BitVec.ofNat 16 (0xF01E + 0x100 * x.val)) = some (.addI x) ∧
      Completes (exec (.addI x) s) fun t =>
        t.i.toNat = (s.i.toNat + (s.readV x).toNat) % 0x10000 ∧ t.pc = s.pc + 2#16 ∧ OnlyChanges [.i, .pc] s t) ∧
    (decodeWord (BitVec.ofNat 16 (0xF029 + 0x100 * x.val)) = some (.ldF x) ∧
      Completes (exec (.ldF x) s) fun t =>
        t.i.toNat = (s.readV x).toNat * 5 ∧ t.pc = s.pc + 2#16 ∧ OnlyChanges [.i, .pc] s t))

/-- `LD B, Vx`: the three decimal digits at I, I + 1, I + 2; out of range BoundsError and nothing written
(spec/43_index_memory.md section 2; decisions D4 and D10). -/
def Obligations.BcdStoresThreeDigits : Prop :=
  ∀ (s : State) (x : Reg),
    decodeWord (BitVec.ofNat 16 (0xF033 + 0x100 * x.val)) = some (.ldB x) ∧
    (indexAddr s + 2 ≤ 0xFFF →
      Completes (exec (.ldB x) s) fun t =>
        (t.mem.read (indexAddr s)).toNat = (s.readV x).toNat / 100 ∧
        (t.mem.read (indexAddr s + 1)).toNat = (s.readV x).toNat / 10 % 10 ∧
        (t.mem.read (indexAddr s + 2)).toNat = (s.readV x).toNat % 10 ∧
        t.pc = s.pc + 2#16 ∧
        OnlyChanges [.byte (indexAddr s), .byte (indexAddr s + 1), .byte (indexAddr s + 2), .pc] s t) ∧
    (0xFFF < indexAddr s + 2 →
      Faults (exec (.ldB x) s) s ⟨.boundsError, s.pc, some (encode (.ldB x)), s.i⟩)

/-- `LD [I], Vx`: V0 to Vx at I to I + x, and I advanced by x + 1; out of range BoundsError and nothing written
(spec/43_index_memory.md section 3; decisions D4 and D10). -/
def Obligations.BlockStoreWritesTheRegisters : Prop :=
  ∀ (s : State) (x : Reg),
    decodeWord (BitVec.ofNat 16 (0xF055 + 0x100 * x.val)) = some (.ldMemVx x) ∧
    (indexAddr s + x.val ≤ 0xFFF →
      Completes (exec (.ldMemVx x) s) fun t =>
        (∀ r : Reg, r.val ≤ x.val → t.mem.read (indexAddr s + r.val) = s.readV r) ∧
        t.i.toNat = s.i.toNat + x.val + 1 ∧ t.pc = s.pc + 2#16 ∧
        UnchangedBut (fun p => p = .i ∨ p = .pc ∨ ∃ r : Reg, r.val ≤ x.val ∧ p = .byte (indexAddr s + r.val)) s t) ∧
    (0xFFF < indexAddr s + x.val →
      Faults (exec (.ldMemVx x) s) s ⟨.boundsError, s.pc, some (encode (.ldMemVx x)), s.i⟩)

/-- `LD Vx, [I]`: V0 to Vx from I to I + x, and I advanced by x + 1; out of range BoundsError and nothing written
(spec/43_index_memory.md section 3; decisions D4 and D10). -/
def Obligations.BlockLoadReadsTheBytes : Prop :=
  ∀ (s : State) (x : Reg),
    decodeWord (BitVec.ofNat 16 (0xF065 + 0x100 * x.val)) = some (.ldVxMem x) ∧
    (indexAddr s + x.val ≤ 0xFFF →
      Completes (exec (.ldVxMem x) s) fun t =>
        (∀ r : Reg, r.val ≤ x.val → t.readV r = s.mem.read (indexAddr s + r.val)) ∧
        t.i.toNat = s.i.toNat + x.val + 1 ∧ t.pc = s.pc + 2#16 ∧
        UnchangedBut (fun p => p = .i ∨ p = .pc ∨ ∃ r : Reg, r.val ≤ x.val ∧ p = .v r) s t) ∧
    (0xFFF < indexAddr s + x.val →
      Faults (exec (.ldVxMem x) s) s ⟨.boundsError, s.pc, some (encode (.ldVxMem x)), s.i⟩)

/-- Dumping V0 to Vx and loading them back, with I set back in between, gives the registers as they were
(spec/43_index_memory.md section 3, C9 of spec/90_conflicts.md). -/
def Obligations.DumpThenLoadRestoresTheRegisters : Prop :=
  ∀ (s : State) (x : Reg), indexAddr s + x.val ≤ 0xFFF →
    Completes (exec (.ldMemVx x) s) fun t =>
      ∀ u : State, u.mem = t.mem → u.i = s.i →
        Completes (exec (.ldVxMem x) u) fun v => ∀ r : Reg, r.val ≤ x.val → v.readV r = s.readV r

/-- Bytes an instruction stores are what the next fetch there reads: two registers stored side by side, or two BCD
digits, make the word fetched at their address (spec/20_memory.md section 7; decision D21). -/
def Obligations.StoredBytesAreFetchedAsCode : Prop :=
  ∀ (s t : State) (x : Reg),
    (∀ r q : Reg, exec (.ldMemVx x) s = .next t → indexAddr s + x.val ≤ 0xFFF → q.val = r.val + 1 →
      q.val ≤ x.val →
      (t.setPc (BitVec.ofNat 16 (indexAddr s + r.val))).fetchWord = some (s.readV r ++ s.readV q)) ∧
    (exec (.ldB x) s = .next t → indexAddr s + 2 ≤ 0xFFF →
      ∃ w : Word, (t.setPc s.i).fetchWord = some w ∧
        w.toNat = (s.readV x).toNat / 100 * 0x100 + (s.readV x).toNat / 10 % 10)

/-! ### Framebuffer (spec/44_display.md) -/

/-- `CLS`: every cell clear and the draw flag set (spec/44_display.md section 1; decision D17). -/
def Obligations.ClearScreenClearsEveryCell : Prop :=
  ∀ s : State,
    decodeWord 0x00E0#16 = some .cls ∧
    Completes (exec .cls s) fun t =>
      (∀ (px : Fin 64) (py : Fin 32), t.fb.cell px.val py.val = false) ∧ t.drawFlag = true ∧
      t.pc = s.pc + 2#16 ∧
      UnchangedBut (fun p => p = .drawFlag ∨ p = .pc ∨ ∃ px py, p = .cell px py) s t

/-- `DRW Vx, Vy, n`: exactly the cells under a set sprite bit change, wrapping at both edges; VF is 1 exactly when one
of them was set; the draw flag is set exactly when some sprite byte is not zero; out of range BoundsError and nothing
written (spec/44_display.md section 2; decisions D4, D10, D26, and the sentence on draw_flag that section marks as
derived). -/
def Obligations.DrawXorsTheSprite : Prop :=
  ∀ (s : State) (x y : Reg) (n : Nat), n ≤ 15 →
    decodeWord (BitVec.ofNat 16 (0xD000 + 0x100 * x.val + 0x10 * y.val + n)) = some (.drw x y n) ∧
    ((0 < n → indexAddr s + n - 1 ≤ 0xFFF) →
      Completes (exec (.drw x y n) s) fun t =>
        (∀ (px : Fin 64) (py : Fin 32),
          t.fb.cell px.val py.val = s.fb.cell px.val py.val ↔ ¬ SpriteCovers s x y n px py) ∧
        ((t.readV vf = 1#8 ∧ ∃ px py, SpriteCovers s x y n px py ∧ s.fb.cell px.val py.val = true) ∨
          (t.readV vf = 0#8 ∧ ¬ ∃ px py, SpriteCovers s x y n px py ∧ s.fb.cell px.val py.val = true)) ∧
        (t.drawFlag = true ↔ s.drawFlag = true ∨ ∃ r < n, s.mem.read (indexAddr s + r) ≠ 0#8) ∧
        t.pc = s.pc + 2#16 ∧
        UnchangedBut (fun p => p = .v vf ∨ p = .drawFlag ∨ p = .pc ∨ ∃ px py, p = .cell px py) s t) ∧
    (0 < n ∧ 0xFFF < indexAddr s + n - 1 →
      Faults (exec (.drw x y n) s) s ⟨.boundsError, s.pc, some (encode (.drw x y n)), s.i⟩)

/-- Drawing the same sprite twice, with the same coordinate values, I and sprite bytes, gives the framebuffer back,
and the second draw reports a collision exactly when some covered cell was clear before the first
(spec/44_display.md section 2, its last rule, which it marks as derived; C10 of spec/90_conflicts.md). -/
def Obligations.DrawingTwiceRestoresTheScreen : Prop :=
  ∀ (s : State) (x y : Reg) (n : Nat), n ≤ 15 → (0 < n → indexAddr s + n - 1 ≤ 0xFFF) →
    Completes (exec (.drw x y n) s) fun t =>
      ∀ u : State, u.fb = t.fb → u.mem = s.mem → u.i = s.i → u.readV x = s.readV x → u.readV y = s.readV y →
        Completes (exec (.drw x y n) u) fun v =>
          v.fb = s.fb ∧
          (v.readV vf = 1#8 ↔ ∃ px py, SpriteCovers s x y n px py ∧ s.fb.cell px.val py.val = false)

/-- `DRW` with n = 0 makes no access, whatever I is: VF becomes 0 and PC advances, and nothing else changes
(spec/44_display.md section 2; decision D26). -/
def Obligations.DrawOfNoRowsOnlyClearsVf : Prop :=
  ∀ (s : State) (x y : Reg),
    Completes (exec (.drw x y 0) s) fun t =>
      t.readV vf = 0#8 ∧ t.pc = s.pc + 2#16 ∧ OnlyChanges [.v vf, .pc] s t

/-! ### Keys and timers (spec/45_timers_keys.md) -/

/-- `SKP Vx` and `SKNP Vx`: the skip depends on the key in Vx; a key number above 0xF raises BoundsError
(spec/45_timers_keys.md section 1; decisions D5 and D10). -/
def Obligations.KeySkips : Prop :=
  ∀ (s : State) (x : Reg),
    decodeWord (BitVec.ofNat 16 (0xE09E + 0x100 * x.val)) = some (.skp x) ∧
    decodeWord (BitVec.ofNat 16 (0xE0A1 + 0x100 * x.val)) = some (.sknp x) ∧
    (∀ k : Key, (s.readV x).toNat = k.val →
      (Completes (exec (.skp x) s) fun t =>
        t.pc = (if s.keyPressed k = true then s.pc + 4#16 else s.pc + 2#16) ∧ OnlyChanges [.pc] s t) ∧
      (Completes (exec (.sknp x) s) fun t =>
        t.pc = (if s.keyPressed k = true then s.pc + 2#16 else s.pc + 4#16) ∧ OnlyChanges [.pc] s t)) ∧
    (0xF < (s.readV x).toNat → ∃ info : Word, info.toNat = (s.readV x).toNat ∧
      Faults (exec (.skp x) s) s ⟨.boundsError, s.pc, some (encode (.skp x)), info⟩ ∧
      Faults (exec (.sknp x) s) s ⟨.boundsError, s.pc, some (encode (.sknp x)), info⟩)

/-- R92 to R94, `LD Vx, DT`, `LD DT, Vx`, `LD ST, Vx`. -/
def Obligations.TimerTransfers : Prop :=
  ∀ (s : State) (x : Reg),
    (decodeWord (BitVec.ofNat 16 (0xF007 + 0x100 * x.val)) = some (.ldVxDt x) ∧
      Completes (exec (.ldVxDt x) s) fun t =>
        t.readV x = s.dt ∧ t.pc = s.pc + 2#16 ∧ OnlyChanges [.v x, .pc] s t) ∧
    (decodeWord (BitVec.ofNat 16 (0xF015 + 0x100 * x.val)) = some (.ldDtVx x) ∧
      Completes (exec (.ldDtVx x) s) fun t =>
        t.dt = s.readV x ∧ t.pc = s.pc + 2#16 ∧ OnlyChanges [.dt, .pc] s t) ∧
    (decodeWord (BitVec.ofNat 16 (0xF018 + 0x100 * x.val)) = some (.ldStVx x) ∧
      Completes (exec (.ldStVx x) s) fun t =>
        t.st = s.readV x ∧ t.pc = s.pc + 2#16 ∧ OnlyChanges [.st, .pc] s t)

/-- `LD Vx, K`: with no key pressed nothing changes, PC among it; else Vx takes the least pressed key
(spec/45_timers_keys.md section 3; decision D12). -/
def Obligations.KeyWaitTakesTheLeastKey : Prop :=
  ∀ (s : State) (x : Reg),
    decodeWord (BitVec.ofNat 16 (0xF00A + 0x100 * x.val)) = some (.ldVxK x) ∧
    ((∀ k : Key, s.keyPressed k = false) → Completes (exec (.ldVxK x) s) fun t => OnlyChanges [] s t) ∧
    (∀ k : Key, s.keyPressed k = true → (∀ j : Key, j.val < k.val → s.keyPressed j = false) →
      Completes (exec (.ldVxK x) s) fun t =>
        (t.readV x).toNat = k.val ∧ t.pc = s.pc + 2#16 ∧ OnlyChanges [.v x, .pc] s t)

/-! ### Rules of the whole machine -/

/-- A Step that changes SP or a stack slot runs CALL or RET; SP moves by one (spec/10_state.md section 4). -/
def Obligations.OnlyCallAndRetTouchTheStack : Prop :=
  ∀ s t : State, step s = .next t → (t.sp ≠ s.sp ∨ ∃ j : Fin 16, t.stack[j.val] ≠ s.stack[j.val]) →
    s.status = .running ∧
    ((∃ nnn, s.Fetches (.call nnn) ∧ t.sp.val = s.sp.val + 1 ∧
        ∀ j : Fin 16, j.val ≠ s.sp.val → t.stack[j.val] = s.stack[j.val]) ∨
      (s.Fetches .ret ∧ t.sp.val + 1 = s.sp.val ∧ t.stack = s.stack))

/-- A Step that changes a cell or the draw flag runs CLS or DRW, and no Step clears the draw flag
(spec/10_state.md section 6). -/
def Obligations.OnlyClsAndDrwTouchTheScreen : Prop :=
  ∀ s t : State, step s = .next t →
    ((t.fb ≠ s.fb ∨ t.drawFlag ≠ s.drawFlag) → s.Fetches .cls ∨ ∃ x y n, s.Fetches (.drw x y n)) ∧
    (s.drawFlag = true → t.drawFlag = true)

/-- A Step that changes VF runs an instruction that writes it as a flag, or one that names VF as its destination
(spec/10_state.md section 1). -/
def Obligations.VfIsWrittenOnlyAsFlagOrDestination : Prop :=
  ∀ s t : State, step s = .next t → t.readV vf ≠ s.readV vf →
    (∃ x y, s.Fetches (.addReg x y) ∨ s.Fetches (.sub x y) ∨ s.Fetches (.subn x y) ∨ s.Fetches (.shr x y) ∨
      s.Fetches (.shl x y) ∨ ∃ n, s.Fetches (.drw x y n)) ∨
    (∃ kk, s.Fetches (.ldImm vf kk) ∨ s.Fetches (.addImm vf kk) ∨ s.Fetches (.rnd vf kk)) ∨
    (∃ y, s.Fetches (.ldReg vf y) ∨ s.Fetches (.orReg vf y) ∨ s.Fetches (.andReg vf y) ∨ s.Fetches (.xorReg vf y)) ∨
    s.Fetches (.ldVxDt vf) ∨ s.Fetches (.ldVxK vf) ∨ s.Fetches (.ldVxMem vf)

/-- A Step that changes a byte of memory runs LD B or LD [I], and the byte is one of those it stores
(spec/20_memory.md section 1). -/
def Obligations.OnlyStoresWriteMemory : Prop :=
  ∀ (s t : State) (a : Nat), step s = .next t → t.mem.read a ≠ s.mem.read a →
    (∃ x, s.Fetches (.ldB x) ∧ indexAddr s ≤ a ∧ a ≤ indexAddr s + 2) ∨
    (∃ x : Reg, s.Fetches (.ldMemVx x) ∧ indexAddr s ≤ a ∧ a ≤ indexAddr s + x.val)

/-- A Step that changes DT runs LD DT, and one that changes ST runs LD ST: no Step counts a timer down
(spec/10_state.md section 5, spec/40_cycle.md section 1). -/
def Obligations.OnlyTimerLoadsWriteTheTimers : Prop :=
  ∀ s t : State, step s = .next t →
    (t.dt ≠ s.dt → ∃ x, s.Fetches (.ldDtVx x) ∧ t.dt = s.readV x) ∧
    (t.st ≠ s.st → ∃ x, s.Fetches (.ldStVx x) ∧ t.st = s.readV x)

/-- R22 and R104: no Step writes a key; KeyDown and KeyUp write the one key, in every status, and nothing else; no
other transaction but Reset changes a key. -/
def Obligations.KeysAreWrittenByTheHostAlone : Prop :=
  (∀ s t : State, step s = .next t → ∀ k : Key, t.keyPressed k = s.keyPressed k) ∧
  (∀ (s : State) (k : Key),
    (Completes (transact (.keyDown k) s) fun t => t.keyPressed k = true ∧ OnlyChanges [.key k] s t) ∧
    (Completes (transact (.keyUp k) s) fun t => t.keyPressed k = false ∧ OnlyChanges [.key k] s t) ∧
    (s.keyPressed k = true → transact (.keyDown k) s = .next s) ∧
    (s.keyPressed k = false → transact (.keyUp k) s = .next s)) ∧
  (∀ (x : Transaction) (s t : State), x ≠ .reset → (∀ k, x ≠ .keyDown k ∧ x ≠ .keyUp k) →
    transact x s = .next t → ∀ k : Key, t.keyPressed k = s.keyPressed k)

/-- Tick decrements each timer that is not 0, in every status, and nothing else (spec/60_exceptions.md section 7;
decision D19 for every status). -/
def Obligations.TickCountsDownToZero : Prop :=
  ∀ s : State, Completes (transact .tick s) fun t =>
    t.dt.toNat = s.dt.toNat - 1 ∧ t.st.toNat = s.st.toNat - 1 ∧ OnlyChanges [.dt, .st] s t

/-- LoadImage writes an image of at most 0xE00 bytes at 0x200 and answers Ok; a longer one answers TooLarge and writes
nothing (spec/60_exceptions.md section 9; decision D23). -/
def Obligations.LoadImageWritesTheImageOrNothing : Prop :=
  ∀ (s : State) (bytes : List Byte),
    (bytes.length ≤ 0xE00 →
      (s.loadImage bytes).1 = .ok ∧
      (∀ (j : Nat) (h : j < bytes.length), (s.loadImage bytes).2.mem.read (0x200 + j) = bytes[j]) ∧
      UnchangedBut (fun p => ∃ j, j < bytes.length ∧ p = .byte (0x200 + j)) s (s.loadImage bytes).2) ∧
    (0xE00 < bytes.length → s.loadImage bytes = (.tooLarge, s)) ∧
    transact (.loadImage bytes) s = .next (s.loadImage bytes).2

/-- After Reset and a LoadImage that answers Ok, the first Step executes the first word of the image
(spec/70_reset_and_hazards.md section 2). -/
def Obligations.BootRunsTheFirstWordOfTheImage : Prop :=
  ∀ (s : State) (hi lo : Byte) (rest : List Byte) (i : Instr), (hi :: lo :: rest).length ≤ 0xE00 →
    decode [hi, lo] = .ok (i, []) →
    step (s.applyReset.loadImage (hi :: lo :: rest)).2 = exec i (s.applyReset.loadImage (hi :: lo :: rest)).2

/-- What the host's read ports give: the framebuffer port has cell (x, y) as element y * 64 + x; the draw-flag, sound
and fault ports are the draw flag, ST and the fault record; the status port is 0, 1 or 2 for RUNNING, ENDED or FAULTED;
the fault code is 0 with no fault and 1 to 5 by the kind, and under the invariant it is not 0 exactly where the status
port is 2. ClearDrawFlag clears the flag alone (spec/10_state.md section 9, spec/60_exceptions.md sections 2 and 9; decisions D2, D16, D18). -/
def Obligations.HostPortsShowTheState : Prop :=
  (∀ (s : State) (x : Fin 64) (y : Fin 32), s.fbPort[y.val * 64 + x.val]? = some (s.fb.cell x.val y.val)) ∧
  (∀ s : State, s.drawFlagPort = s.drawFlag ∧ s.soundPort = s.st ∧ s.faultPort = s.fault) ∧
  (∀ s : State,
    (s.status = .running → s.statusPort = 0#2) ∧
    (s.status = .ended → s.statusPort = 1#2) ∧
    (s.status = .faulted → s.statusPort = 2#2)) ∧
  (∀ s : State, s.fault = none → s.faultCodePort = 0#3) ∧
  (∀ (s : State) (f : FaultRecord), s.fault = some f →
    (f.kind = .stackUnderflow → s.faultCodePort = 1#3) ∧
    (f.kind = .stackOverflow → s.faultCodePort = 2#3) ∧
    (f.kind = .addressError → s.faultCodePort = 3#3) ∧
    (f.kind = .unknownOpcode → s.faultCodePort = 4#3) ∧
    (f.kind = .boundsError → s.faultCodePort = 5#3)) ∧
  (∀ s : State, s.Inv → (s.statusPort = 2#2 ↔ s.faultCodePort ≠ 0#3)) ∧
  (∀ s : State, Completes (transact .clearDrawFlag s) fun t =>
    t.drawFlag = false ∧ OnlyChanges [.drawFlag] s t)

/-- A well-formed instruction placed in the machine after reset is what the next Step runs. -/
def Obligations.PlacedInstructionRunsFirst : Prop :=
  ∀ i : Instr, i.wellFormed = true →
    step (State.reset.withFetchWord 16 (encode i).toNat) = exec i (State.reset.withFetchWord 16 (encode i).toNat)
end

