-- ==== Sys2Proof/Laws/State.lean ====
section
/-! SUPPORT. What each update of the state leaves in each field, all true by rfl, and the fields after Reset. -/

namespace Sys2Proof.Machine

/-! ### setV -/

@[simp] theorem setV_v (s : State) (r : Reg) (b : Byte) :
    (s.setV r b).v = s.v.set r.val b := rfl
@[simp] theorem setV_i (s : State) (r : Reg) (b : Byte) :
    (s.setV r b).i = s.i := rfl
@[simp] theorem setV_pc (s : State) (r : Reg) (b : Byte) :
    (s.setV r b).pc = s.pc := rfl
@[simp] theorem setV_stack (s : State) (r : Reg) (b : Byte) :
    (s.setV r b).stack = s.stack := rfl
@[simp] theorem setV_sp (s : State) (r : Reg) (b : Byte) :
    (s.setV r b).sp = s.sp := rfl
@[simp] theorem setV_dt (s : State) (r : Reg) (b : Byte) :
    (s.setV r b).dt = s.dt := rfl
@[simp] theorem setV_st (s : State) (r : Reg) (b : Byte) :
    (s.setV r b).st = s.st := rfl
@[simp] theorem setV_fb (s : State) (r : Reg) (b : Byte) :
    (s.setV r b).fb = s.fb := rfl
@[simp] theorem setV_drawFlag (s : State) (r : Reg) (b : Byte) :
    (s.setV r b).drawFlag = s.drawFlag := rfl
@[simp] theorem setV_keys (s : State) (r : Reg) (b : Byte) :
    (s.setV r b).keys = s.keys := rfl
@[simp] theorem setV_status (s : State) (r : Reg) (b : Byte) :
    (s.setV r b).status = s.status := rfl
@[simp] theorem setV_fault (s : State) (r : Reg) (b : Byte) :
    (s.setV r b).fault = s.fault := rfl
@[simp] theorem setV_mem (s : State) (r : Reg) (b : Byte) :
    (s.setV r b).mem = s.mem := rfl
@[simp] theorem setV_drawCount (s : State) (r : Reg) (b : Byte) :
    (s.setV r b).drawCount = s.drawCount := rfl
@[simp] theorem setV_keyPressed (s : State) (r : Reg) (b : Byte) (q : Key) :
    (s.setV r b).keyPressed q = s.keyPressed q := rfl

/-! ### setI -/

@[simp] theorem setI_v (s : State) (w : Word) :
    (s.setI w).v = s.v := rfl
@[simp] theorem setI_i (s : State) (w : Word) :
    (s.setI w).i = w := rfl
@[simp] theorem setI_pc (s : State) (w : Word) :
    (s.setI w).pc = s.pc := rfl
@[simp] theorem setI_stack (s : State) (w : Word) :
    (s.setI w).stack = s.stack := rfl
@[simp] theorem setI_sp (s : State) (w : Word) :
    (s.setI w).sp = s.sp := rfl
@[simp] theorem setI_dt (s : State) (w : Word) :
    (s.setI w).dt = s.dt := rfl
@[simp] theorem setI_st (s : State) (w : Word) :
    (s.setI w).st = s.st := rfl
@[simp] theorem setI_fb (s : State) (w : Word) :
    (s.setI w).fb = s.fb := rfl
@[simp] theorem setI_drawFlag (s : State) (w : Word) :
    (s.setI w).drawFlag = s.drawFlag := rfl
@[simp] theorem setI_keys (s : State) (w : Word) :
    (s.setI w).keys = s.keys := rfl
@[simp] theorem setI_status (s : State) (w : Word) :
    (s.setI w).status = s.status := rfl
@[simp] theorem setI_fault (s : State) (w : Word) :
    (s.setI w).fault = s.fault := rfl
@[simp] theorem setI_mem (s : State) (w : Word) :
    (s.setI w).mem = s.mem := rfl
@[simp] theorem setI_drawCount (s : State) (w : Word) :
    (s.setI w).drawCount = s.drawCount := rfl
@[simp] theorem setI_readV (s : State) (w : Word) (q : Reg) :
    (s.setI w).readV q = s.readV q := rfl
@[simp] theorem setI_keyPressed (s : State) (w : Word) (q : Key) :
    (s.setI w).keyPressed q = s.keyPressed q := rfl

/-! ### setPc -/

@[simp] theorem setPc_v (s : State) (w : Word) :
    (s.setPc w).v = s.v := rfl
@[simp] theorem setPc_i (s : State) (w : Word) :
    (s.setPc w).i = s.i := rfl
@[simp] theorem setPc_pc (s : State) (w : Word) :
    (s.setPc w).pc = w := rfl
@[simp] theorem setPc_stack (s : State) (w : Word) :
    (s.setPc w).stack = s.stack := rfl
@[simp] theorem setPc_sp (s : State) (w : Word) :
    (s.setPc w).sp = s.sp := rfl
@[simp] theorem setPc_dt (s : State) (w : Word) :
    (s.setPc w).dt = s.dt := rfl
@[simp] theorem setPc_st (s : State) (w : Word) :
    (s.setPc w).st = s.st := rfl
@[simp] theorem setPc_fb (s : State) (w : Word) :
    (s.setPc w).fb = s.fb := rfl
@[simp] theorem setPc_drawFlag (s : State) (w : Word) :
    (s.setPc w).drawFlag = s.drawFlag := rfl
@[simp] theorem setPc_keys (s : State) (w : Word) :
    (s.setPc w).keys = s.keys := rfl
@[simp] theorem setPc_status (s : State) (w : Word) :
    (s.setPc w).status = s.status := rfl
@[simp] theorem setPc_fault (s : State) (w : Word) :
    (s.setPc w).fault = s.fault := rfl
@[simp] theorem setPc_mem (s : State) (w : Word) :
    (s.setPc w).mem = s.mem := rfl
@[simp] theorem setPc_drawCount (s : State) (w : Word) :
    (s.setPc w).drawCount = s.drawCount := rfl
@[simp] theorem setPc_readV (s : State) (w : Word) (q : Reg) :
    (s.setPc w).readV q = s.readV q := rfl
@[simp] theorem setPc_keyPressed (s : State) (w : Word) (q : Key) :
    (s.setPc w).keyPressed q = s.keyPressed q := rfl

/-! ### setDt -/

@[simp] theorem setDt_v (s : State) (b : Byte) :
    (s.setDt b).v = s.v := rfl
@[simp] theorem setDt_i (s : State) (b : Byte) :
    (s.setDt b).i = s.i := rfl
@[simp] theorem setDt_pc (s : State) (b : Byte) :
    (s.setDt b).pc = s.pc := rfl
@[simp] theorem setDt_stack (s : State) (b : Byte) :
    (s.setDt b).stack = s.stack := rfl
@[simp] theorem setDt_sp (s : State) (b : Byte) :
    (s.setDt b).sp = s.sp := rfl
@[simp] theorem setDt_dt (s : State) (b : Byte) :
    (s.setDt b).dt = b := rfl
@[simp] theorem setDt_st (s : State) (b : Byte) :
    (s.setDt b).st = s.st := rfl
@[simp] theorem setDt_fb (s : State) (b : Byte) :
    (s.setDt b).fb = s.fb := rfl
@[simp] theorem setDt_drawFlag (s : State) (b : Byte) :
    (s.setDt b).drawFlag = s.drawFlag := rfl
@[simp] theorem setDt_keys (s : State) (b : Byte) :
    (s.setDt b).keys = s.keys := rfl
@[simp] theorem setDt_status (s : State) (b : Byte) :
    (s.setDt b).status = s.status := rfl
@[simp] theorem setDt_fault (s : State) (b : Byte) :
    (s.setDt b).fault = s.fault := rfl
@[simp] theorem setDt_mem (s : State) (b : Byte) :
    (s.setDt b).mem = s.mem := rfl
@[simp] theorem setDt_drawCount (s : State) (b : Byte) :
    (s.setDt b).drawCount = s.drawCount := rfl
@[simp] theorem setDt_readV (s : State) (b : Byte) (q : Reg) :
    (s.setDt b).readV q = s.readV q := rfl
@[simp] theorem setDt_keyPressed (s : State) (b : Byte) (q : Key) :
    (s.setDt b).keyPressed q = s.keyPressed q := rfl

/-! ### setSt -/

@[simp] theorem setSt_v (s : State) (b : Byte) :
    (s.setSt b).v = s.v := rfl
@[simp] theorem setSt_i (s : State) (b : Byte) :
    (s.setSt b).i = s.i := rfl
@[simp] theorem setSt_pc (s : State) (b : Byte) :
    (s.setSt b).pc = s.pc := rfl
@[simp] theorem setSt_stack (s : State) (b : Byte) :
    (s.setSt b).stack = s.stack := rfl
@[simp] theorem setSt_sp (s : State) (b : Byte) :
    (s.setSt b).sp = s.sp := rfl
@[simp] theorem setSt_dt (s : State) (b : Byte) :
    (s.setSt b).dt = s.dt := rfl
@[simp] theorem setSt_st (s : State) (b : Byte) :
    (s.setSt b).st = b := rfl
@[simp] theorem setSt_fb (s : State) (b : Byte) :
    (s.setSt b).fb = s.fb := rfl
@[simp] theorem setSt_drawFlag (s : State) (b : Byte) :
    (s.setSt b).drawFlag = s.drawFlag := rfl
@[simp] theorem setSt_keys (s : State) (b : Byte) :
    (s.setSt b).keys = s.keys := rfl
@[simp] theorem setSt_status (s : State) (b : Byte) :
    (s.setSt b).status = s.status := rfl
@[simp] theorem setSt_fault (s : State) (b : Byte) :
    (s.setSt b).fault = s.fault := rfl
@[simp] theorem setSt_mem (s : State) (b : Byte) :
    (s.setSt b).mem = s.mem := rfl
@[simp] theorem setSt_drawCount (s : State) (b : Byte) :
    (s.setSt b).drawCount = s.drawCount := rfl
@[simp] theorem setSt_readV (s : State) (b : Byte) (q : Reg) :
    (s.setSt b).readV q = s.readV q := rfl
@[simp] theorem setSt_keyPressed (s : State) (b : Byte) (q : Key) :
    (s.setSt b).keyPressed q = s.keyPressed q := rfl

/-! ### setScreen -/

@[simp] theorem setScreen_v (s : State) (fb : Framebuffer) (d : Bool) :
    (s.setScreen fb d).v = s.v := rfl
@[simp] theorem setScreen_i (s : State) (fb : Framebuffer) (d : Bool) :
    (s.setScreen fb d).i = s.i := rfl
@[simp] theorem setScreen_pc (s : State) (fb : Framebuffer) (d : Bool) :
    (s.setScreen fb d).pc = s.pc := rfl
@[simp] theorem setScreen_stack (s : State) (fb : Framebuffer) (d : Bool) :
    (s.setScreen fb d).stack = s.stack := rfl
@[simp] theorem setScreen_sp (s : State) (fb : Framebuffer) (d : Bool) :
    (s.setScreen fb d).sp = s.sp := rfl
@[simp] theorem setScreen_dt (s : State) (fb : Framebuffer) (d : Bool) :
    (s.setScreen fb d).dt = s.dt := rfl
@[simp] theorem setScreen_st (s : State) (fb : Framebuffer) (d : Bool) :
    (s.setScreen fb d).st = s.st := rfl
@[simp] theorem setScreen_fb (s : State) (fb : Framebuffer) (d : Bool) :
    (s.setScreen fb d).fb = fb := rfl
@[simp] theorem setScreen_drawFlag (s : State) (fb : Framebuffer) (d : Bool) :
    (s.setScreen fb d).drawFlag = d := rfl
@[simp] theorem setScreen_keys (s : State) (fb : Framebuffer) (d : Bool) :
    (s.setScreen fb d).keys = s.keys := rfl
@[simp] theorem setScreen_status (s : State) (fb : Framebuffer) (d : Bool) :
    (s.setScreen fb d).status = s.status := rfl
@[simp] theorem setScreen_fault (s : State) (fb : Framebuffer) (d : Bool) :
    (s.setScreen fb d).fault = s.fault := rfl
@[simp] theorem setScreen_mem (s : State) (fb : Framebuffer) (d : Bool) :
    (s.setScreen fb d).mem = s.mem := rfl
@[simp] theorem setScreen_drawCount (s : State) (fb : Framebuffer) (d : Bool) :
    (s.setScreen fb d).drawCount = s.drawCount := rfl
@[simp] theorem setScreen_readV (s : State) (fb : Framebuffer) (d : Bool) (q : Reg) :
    (s.setScreen fb d).readV q = s.readV q := rfl
@[simp] theorem setScreen_keyPressed (s : State) (fb : Framebuffer) (d : Bool) (q : Key) :
    (s.setScreen fb d).keyPressed q = s.keyPressed q := rfl

/-! ### setKey -/

@[simp] theorem setKey_v (s : State) (k : Key) (b : Bool) :
    (s.setKey k b).v = s.v := rfl
@[simp] theorem setKey_i (s : State) (k : Key) (b : Bool) :
    (s.setKey k b).i = s.i := rfl
@[simp] theorem setKey_pc (s : State) (k : Key) (b : Bool) :
    (s.setKey k b).pc = s.pc := rfl
@[simp] theorem setKey_stack (s : State) (k : Key) (b : Bool) :
    (s.setKey k b).stack = s.stack := rfl
@[simp] theorem setKey_sp (s : State) (k : Key) (b : Bool) :
    (s.setKey k b).sp = s.sp := rfl
@[simp] theorem setKey_dt (s : State) (k : Key) (b : Bool) :
    (s.setKey k b).dt = s.dt := rfl
@[simp] theorem setKey_st (s : State) (k : Key) (b : Bool) :
    (s.setKey k b).st = s.st := rfl
@[simp] theorem setKey_fb (s : State) (k : Key) (b : Bool) :
    (s.setKey k b).fb = s.fb := rfl
@[simp] theorem setKey_drawFlag (s : State) (k : Key) (b : Bool) :
    (s.setKey k b).drawFlag = s.drawFlag := rfl
@[simp] theorem setKey_keys (s : State) (k : Key) (b : Bool) :
    (s.setKey k b).keys = s.keys.set k.val b := rfl
@[simp] theorem setKey_status (s : State) (k : Key) (b : Bool) :
    (s.setKey k b).status = s.status := rfl
@[simp] theorem setKey_fault (s : State) (k : Key) (b : Bool) :
    (s.setKey k b).fault = s.fault := rfl
@[simp] theorem setKey_mem (s : State) (k : Key) (b : Bool) :
    (s.setKey k b).mem = s.mem := rfl
@[simp] theorem setKey_drawCount (s : State) (k : Key) (b : Bool) :
    (s.setKey k b).drawCount = s.drawCount := rfl
@[simp] theorem setKey_readV (s : State) (k : Key) (b : Bool) (q : Reg) :
    (s.setKey k b).readV q = s.readV q := rfl

/-! ### advance -/

@[simp] theorem advance_v (s : State) (a : Advance) :
    (s.advance a).v = s.v := rfl
@[simp] theorem advance_i (s : State) (a : Advance) :
    (s.advance a).i = s.i := rfl
@[simp] theorem advance_pc (s : State) (a : Advance) :
    (s.advance a).pc = s.pc + advanceBy a := rfl
@[simp] theorem advance_stack (s : State) (a : Advance) :
    (s.advance a).stack = s.stack := rfl
@[simp] theorem advance_sp (s : State) (a : Advance) :
    (s.advance a).sp = s.sp := rfl
@[simp] theorem advance_dt (s : State) (a : Advance) :
    (s.advance a).dt = s.dt := rfl
@[simp] theorem advance_st (s : State) (a : Advance) :
    (s.advance a).st = s.st := rfl
@[simp] theorem advance_fb (s : State) (a : Advance) :
    (s.advance a).fb = s.fb := rfl
@[simp] theorem advance_drawFlag (s : State) (a : Advance) :
    (s.advance a).drawFlag = s.drawFlag := rfl
@[simp] theorem advance_keys (s : State) (a : Advance) :
    (s.advance a).keys = s.keys := rfl
@[simp] theorem advance_status (s : State) (a : Advance) :
    (s.advance a).status = s.status := rfl
@[simp] theorem advance_fault (s : State) (a : Advance) :
    (s.advance a).fault = s.fault := rfl
@[simp] theorem advance_mem (s : State) (a : Advance) :
    (s.advance a).mem = s.mem := rfl
@[simp] theorem advance_drawCount (s : State) (a : Advance) :
    (s.advance a).drawCount = s.drawCount := rfl
@[simp] theorem advance_readV (s : State) (a : Advance) (q : Reg) :
    (s.advance a).readV q = s.readV q := rfl
@[simp] theorem advance_keyPressed (s : State) (a : Advance) (q : Key) :
    (s.advance a).keyPressed q = s.keyPressed q := rfl

/-! ### raise -/

@[simp] theorem raise_v (s : State) (k : FaultKind) (w : Option Word) (info : Word) :
    (s.raise k w info).v = s.v := rfl
@[simp] theorem raise_i (s : State) (k : FaultKind) (w : Option Word) (info : Word) :
    (s.raise k w info).i = s.i := rfl
@[simp] theorem raise_pc (s : State) (k : FaultKind) (w : Option Word) (info : Word) :
    (s.raise k w info).pc = s.pc := rfl
@[simp] theorem raise_stack (s : State) (k : FaultKind) (w : Option Word) (info : Word) :
    (s.raise k w info).stack = s.stack := rfl
@[simp] theorem raise_sp (s : State) (k : FaultKind) (w : Option Word) (info : Word) :
    (s.raise k w info).sp = s.sp := rfl
@[simp] theorem raise_dt (s : State) (k : FaultKind) (w : Option Word) (info : Word) :
    (s.raise k w info).dt = s.dt := rfl
@[simp] theorem raise_st (s : State) (k : FaultKind) (w : Option Word) (info : Word) :
    (s.raise k w info).st = s.st := rfl
@[simp] theorem raise_fb (s : State) (k : FaultKind) (w : Option Word) (info : Word) :
    (s.raise k w info).fb = s.fb := rfl
@[simp] theorem raise_drawFlag (s : State) (k : FaultKind) (w : Option Word) (info : Word) :
    (s.raise k w info).drawFlag = s.drawFlag := rfl
@[simp] theorem raise_keys (s : State) (k : FaultKind) (w : Option Word) (info : Word) :
    (s.raise k w info).keys = s.keys := rfl
@[simp] theorem raise_status (s : State) (k : FaultKind) (w : Option Word) (info : Word) :
    (s.raise k w info).status = .faulted := rfl
@[simp] theorem raise_fault (s : State) (k : FaultKind) (w : Option Word) (info : Word) :
    (s.raise k w info).fault = some { kind := k, pc := s.pc, word := w, info := info } := rfl
@[simp] theorem raise_mem (s : State) (k : FaultKind) (w : Option Word) (info : Word) :
    (s.raise k w info).mem = s.mem := rfl
@[simp] theorem raise_drawCount (s : State) (k : FaultKind) (w : Option Word) (info : Word) :
    (s.raise k w info).drawCount = s.drawCount := rfl
@[simp] theorem raise_readV (s : State) (k : FaultKind) (w : Option Word) (info : Word) (q : Reg) :
    (s.raise k w info).readV q = s.readV q := rfl
@[simp] theorem raise_keyPressed (s : State) (k : FaultKind) (w : Option Word) (info : Word) (q : Key) :
    (s.raise k w info).keyPressed q = s.keyPressed q := rfl

/-! ### endRun -/

@[simp] theorem endRun_v (s : State) :
    s.endRun.v = s.v := rfl
@[simp] theorem endRun_i (s : State) :
    s.endRun.i = s.i := rfl
@[simp] theorem endRun_pc (s : State) :
    s.endRun.pc = s.pc := rfl
@[simp] theorem endRun_stack (s : State) :
    s.endRun.stack = s.stack := rfl
@[simp] theorem endRun_sp (s : State) :
    s.endRun.sp = s.sp := rfl
@[simp] theorem endRun_dt (s : State) :
    s.endRun.dt = s.dt := rfl
@[simp] theorem endRun_st (s : State) :
    s.endRun.st = s.st := rfl
@[simp] theorem endRun_fb (s : State) :
    s.endRun.fb = s.fb := rfl
@[simp] theorem endRun_drawFlag (s : State) :
    s.endRun.drawFlag = s.drawFlag := rfl
@[simp] theorem endRun_keys (s : State) :
    s.endRun.keys = s.keys := rfl
@[simp] theorem endRun_status (s : State) :
    s.endRun.status = .ended := rfl
@[simp] theorem endRun_fault (s : State) :
    s.endRun.fault = s.fault := rfl
@[simp] theorem endRun_mem (s : State) :
    s.endRun.mem = s.mem := rfl
@[simp] theorem endRun_drawCount (s : State) :
    s.endRun.drawCount = s.drawCount := rfl
@[simp] theorem endRun_readV (s : State) (q : Reg) :
    s.endRun.readV q = s.readV q := rfl
@[simp] theorem endRun_keyPressed (s : State) (q : Key) :
    s.endRun.keyPressed q = s.keyPressed q := rfl

/-! ### setFlagThenV -/

@[simp] theorem setFlagThenV_v (s : State) (f : Byte) (x : Reg) (b : Byte) :
    (s.setFlagThenV f x b).v = (s.v.set vf.val f).set x.val b := rfl
@[simp] theorem setFlagThenV_i (s : State) (f : Byte) (x : Reg) (b : Byte) :
    (s.setFlagThenV f x b).i = s.i := rfl
@[simp] theorem setFlagThenV_pc (s : State) (f : Byte) (x : Reg) (b : Byte) :
    (s.setFlagThenV f x b).pc = s.pc := rfl
@[simp] theorem setFlagThenV_stack (s : State) (f : Byte) (x : Reg) (b : Byte) :
    (s.setFlagThenV f x b).stack = s.stack := rfl
@[simp] theorem setFlagThenV_sp (s : State) (f : Byte) (x : Reg) (b : Byte) :
    (s.setFlagThenV f x b).sp = s.sp := rfl
@[simp] theorem setFlagThenV_dt (s : State) (f : Byte) (x : Reg) (b : Byte) :
    (s.setFlagThenV f x b).dt = s.dt := rfl
@[simp] theorem setFlagThenV_st (s : State) (f : Byte) (x : Reg) (b : Byte) :
    (s.setFlagThenV f x b).st = s.st := rfl
@[simp] theorem setFlagThenV_fb (s : State) (f : Byte) (x : Reg) (b : Byte) :
    (s.setFlagThenV f x b).fb = s.fb := rfl
@[simp] theorem setFlagThenV_drawFlag (s : State) (f : Byte) (x : Reg) (b : Byte) :
    (s.setFlagThenV f x b).drawFlag = s.drawFlag := rfl
@[simp] theorem setFlagThenV_keys (s : State) (f : Byte) (x : Reg) (b : Byte) :
    (s.setFlagThenV f x b).keys = s.keys := rfl
@[simp] theorem setFlagThenV_status (s : State) (f : Byte) (x : Reg) (b : Byte) :
    (s.setFlagThenV f x b).status = s.status := rfl
@[simp] theorem setFlagThenV_fault (s : State) (f : Byte) (x : Reg) (b : Byte) :
    (s.setFlagThenV f x b).fault = s.fault := rfl
@[simp] theorem setFlagThenV_mem (s : State) (f : Byte) (x : Reg) (b : Byte) :
    (s.setFlagThenV f x b).mem = s.mem := rfl
@[simp] theorem setFlagThenV_drawCount (s : State) (f : Byte) (x : Reg) (b : Byte) :
    (s.setFlagThenV f x b).drawCount = s.drawCount := rfl
@[simp] theorem setFlagThenV_keyPressed (s : State) (f : Byte) (x : Reg) (b : Byte) (q : Key) :
    (s.setFlagThenV f x b).keyPressed q = s.keyPressed q := rfl

/-! ### tick -/

@[simp] theorem tick_v (s : State) :
    s.tick.v = s.v := rfl
@[simp] theorem tick_i (s : State) :
    s.tick.i = s.i := rfl
@[simp] theorem tick_pc (s : State) :
    s.tick.pc = s.pc := rfl
@[simp] theorem tick_stack (s : State) :
    s.tick.stack = s.stack := rfl
@[simp] theorem tick_sp (s : State) :
    s.tick.sp = s.sp := rfl
@[simp] theorem tick_dt (s : State) :
    s.tick.dt = countDown s.dt := rfl
@[simp] theorem tick_st (s : State) :
    s.tick.st = countDown s.st := rfl
@[simp] theorem tick_fb (s : State) :
    s.tick.fb = s.fb := rfl
@[simp] theorem tick_drawFlag (s : State) :
    s.tick.drawFlag = s.drawFlag := rfl
@[simp] theorem tick_keys (s : State) :
    s.tick.keys = s.keys := rfl
@[simp] theorem tick_status (s : State) :
    s.tick.status = s.status := rfl
@[simp] theorem tick_fault (s : State) :
    s.tick.fault = s.fault := rfl
@[simp] theorem tick_mem (s : State) :
    s.tick.mem = s.mem := rfl
@[simp] theorem tick_drawCount (s : State) :
    s.tick.drawCount = s.drawCount := rfl
@[simp] theorem tick_readV (s : State) (q : Reg) :
    s.tick.readV q = s.readV q := rfl
@[simp] theorem tick_keyPressed (s : State) (q : Key) :
    s.tick.keyPressed q = s.keyPressed q := rfl

/-! ### clearDrawFlag -/

@[simp] theorem clearDrawFlag_v (s : State) :
    s.clearDrawFlag.v = s.v := rfl
@[simp] theorem clearDrawFlag_i (s : State) :
    s.clearDrawFlag.i = s.i := rfl
@[simp] theorem clearDrawFlag_pc (s : State) :
    s.clearDrawFlag.pc = s.pc := rfl
@[simp] theorem clearDrawFlag_stack (s : State) :
    s.clearDrawFlag.stack = s.stack := rfl
@[simp] theorem clearDrawFlag_sp (s : State) :
    s.clearDrawFlag.sp = s.sp := rfl
@[simp] theorem clearDrawFlag_dt (s : State) :
    s.clearDrawFlag.dt = s.dt := rfl
@[simp] theorem clearDrawFlag_st (s : State) :
    s.clearDrawFlag.st = s.st := rfl
@[simp] theorem clearDrawFlag_fb (s : State) :
    s.clearDrawFlag.fb = s.fb := rfl
@[simp] theorem clearDrawFlag_drawFlag (s : State) :
    s.clearDrawFlag.drawFlag = false := rfl
@[simp] theorem clearDrawFlag_keys (s : State) :
    s.clearDrawFlag.keys = s.keys := rfl
@[simp] theorem clearDrawFlag_status (s : State) :
    s.clearDrawFlag.status = s.status := rfl
@[simp] theorem clearDrawFlag_fault (s : State) :
    s.clearDrawFlag.fault = s.fault := rfl
@[simp] theorem clearDrawFlag_mem (s : State) :
    s.clearDrawFlag.mem = s.mem := rfl
@[simp] theorem clearDrawFlag_drawCount (s : State) :
    s.clearDrawFlag.drawCount = s.drawCount := rfl
@[simp] theorem clearDrawFlag_readV (s : State) (q : Reg) :
    s.clearDrawFlag.readV q = s.readV q := rfl
@[simp] theorem clearDrawFlag_keyPressed (s : State) (q : Key) :
    s.clearDrawFlag.keyPressed q = s.keyPressed q := rfl

/-! ### draw and applyReset -/

@[simp] theorem draw_v (s : State) :
    s.draw.2.v = s.v := rfl
@[simp] theorem draw_i (s : State) :
    s.draw.2.i = s.i := rfl
@[simp] theorem draw_pc (s : State) :
    s.draw.2.pc = s.pc := rfl
@[simp] theorem draw_stack (s : State) :
    s.draw.2.stack = s.stack := rfl
@[simp] theorem draw_sp (s : State) :
    s.draw.2.sp = s.sp := rfl
@[simp] theorem draw_dt (s : State) :
    s.draw.2.dt = s.dt := rfl
@[simp] theorem draw_st (s : State) :
    s.draw.2.st = s.st := rfl
@[simp] theorem draw_fb (s : State) :
    s.draw.2.fb = s.fb := rfl
@[simp] theorem draw_drawFlag (s : State) :
    s.draw.2.drawFlag = s.drawFlag := rfl
@[simp] theorem draw_keys (s : State) :
    s.draw.2.keys = s.keys := rfl
@[simp] theorem draw_status (s : State) :
    s.draw.2.status = s.status := rfl
@[simp] theorem draw_fault (s : State) :
    s.draw.2.fault = s.fault := rfl
@[simp] theorem draw_mem (s : State) :
    s.draw.2.mem = s.mem := rfl
@[simp] theorem draw_drawCount (s : State) :
    s.draw.2.drawCount = s.drawCount + 1 := rfl
@[simp] theorem draw_readV (s : State) (q : Reg) :
    s.draw.2.readV q = s.readV q := rfl

@[simp] theorem applyReset_v (s : State) :
    s.applyReset.v = State.reset.v := rfl
@[simp] theorem applyReset_i (s : State) :
    s.applyReset.i = State.reset.i := rfl
@[simp] theorem applyReset_pc (s : State) :
    s.applyReset.pc = State.reset.pc := rfl
@[simp] theorem applyReset_stack (s : State) :
    s.applyReset.stack = State.reset.stack := rfl
@[simp] theorem applyReset_sp (s : State) :
    s.applyReset.sp = State.reset.sp := rfl
@[simp] theorem applyReset_dt (s : State) :
    s.applyReset.dt = State.reset.dt := rfl
@[simp] theorem applyReset_st (s : State) :
    s.applyReset.st = State.reset.st := rfl
@[simp] theorem applyReset_fb (s : State) :
    s.applyReset.fb = State.reset.fb := rfl
@[simp] theorem applyReset_drawFlag (s : State) :
    s.applyReset.drawFlag = State.reset.drawFlag := rfl
@[simp] theorem applyReset_keys (s : State) :
    s.applyReset.keys = State.reset.keys := rfl
@[simp] theorem applyReset_status (s : State) :
    s.applyReset.status = State.reset.status := rfl
@[simp] theorem applyReset_fault (s : State) :
    s.applyReset.fault = State.reset.fault := rfl
@[simp] theorem applyReset_mem (s : State) :
    s.applyReset.mem = State.reset.mem := rfl
@[simp] theorem applyReset_drawCount (s : State) :
    s.applyReset.drawCount = s.drawCount := rfl

end Sys2Proof.Machine
end

