-- ==== Sys2Proof/Laws/Memory.lean ====
section
/-! SUPPORT. The laws of memory: a read after a write, and that every memory operation keeps the canonical form. -/

namespace Sys2Proof.Machine

@[simp] theorem read_nil (a : Nat) : Memory.read [] a = unlistedByte a := rfl

theorem read_cons (b : Nat) (w : Byte) (m : Memory) (a : Nat) :
    Memory.read ((b, w) :: m) a = if a = b then w else Memory.read m a := rfl

theorem wf_nil : Memory.wf [] := ⟨.nil, fun _ h => absurd h List.not_mem_nil⟩

theorem wf_cons {b : Nat} {w : Byte} {m : Memory} :
    Memory.wf ((b, w) :: m) ↔
      (∀ c ∈ m, b < c.1) ∧ b < Config.memSize ∧ w ≠ unlistedByte b ∧ Memory.wf m := by
  simp only [Memory.wf, List.pairwise_cons, List.mem_cons, forall_eq_or_imp]
  tauto

theorem mem_dropCell {m : Memory} {a : Nat} {c : Host.Cell} : c ∈ m.dropCell a ↔ c ∈ m ∧ c.1 ≠ a := by
  simp [Memory.dropCell]

theorem mem_addCell {m : Memory} {a : Nat} {w : Byte} {c : Host.Cell} :
    c ∈ Memory.addCell a w m ↔ c = (a, w) ∨ c ∈ m := by
  induction m with
  | nil => simp [Memory.addCell]
  | cons d m ih =>
    unfold Memory.addCell
    split
    · simp
    · simp only [List.mem_cons, ih]; tauto

theorem read_dropCell (m : Memory) (a b : Nat) :
    (m.dropCell a).read b = if b = a then unlistedByte a else m.read b := by
  induction m with
  | nil => simp only [Memory.dropCell, List.filter_nil, read_nil]; split <;> simp_all
  | cons c m ih =>
    obtain ⟨d, u⟩ := c
    have hc : Memory.dropCell ((d, u) :: m) a = if d = a then Memory.dropCell m a else (d, u) :: Memory.dropCell m a := by
      simp only [Memory.dropCell, List.filter_cons]
      by_cases h : d = a <;> simp [h]
    rw [hc, read_cons]
    by_cases hd : d = a
    · rw [if_pos hd, ih]; split <;> simp_all
    · rw [if_neg hd, read_cons, ih]; split <;> simp_all

theorem read_addCell {m : Memory} {a : Nat} (w : Byte) (h : ∀ c ∈ m, c.1 ≠ a) (b : Nat) :
    (Memory.addCell a w m).read b = if b = a then w else m.read b := by
  induction m with
  | nil => rfl
  | cons c m ih =>
    obtain ⟨d, u⟩ := c
    have hd : d ≠ a := h (d, u) (by simp)
    unfold Memory.addCell
    split
    · rfl
    · rw [read_cons, ih (fun e he => h e (by simp [he])), read_cons]
      split <;> simp_all

/-- A read after a write gives the byte written, and every other address reads as before. -/
theorem read_write (m : Memory) (a : Nat) (w : Byte) (b : Nat) :
    (m.write a w).read b = if b = a then w else m.read b := by
  unfold Memory.write
  split
  · rename_i h; rw [read_dropCell, h]
  · rw [read_addCell w (fun c hc => (mem_dropCell.1 hc).2), read_dropCell]
    split <;> simp_all

theorem wf_dropCell {m : Memory} (a : Nat) (hm : m.wf) : (m.dropCell a).wf :=
  ⟨hm.1.filter _, fun c hc => hm.2 c (mem_dropCell.1 hc).1⟩

theorem wf_addCell {m : Memory} {a : Nat} {w : Byte} (hm : m.wf) (ha : a < Config.memSize)
    (hw : w ≠ unlistedByte a) (h : ∀ c ∈ m, c.1 ≠ a) : (Memory.addCell a w m).wf := by
  induction m with
  | nil => exact wf_cons.2 ⟨by simp, ha, hw, wf_nil⟩
  | cons c m ih =>
    obtain ⟨d, u⟩ := c
    obtain ⟨hlt, hd, hu, hm'⟩ := wf_cons.1 hm
    have hne : d ≠ a := h (d, u) (by simp)
    unfold Memory.addCell
    split
    · rename_i had
      refine wf_cons.2 ⟨fun e he => ?_, ha, hw, hm⟩
      rcases List.mem_cons.1 he with rfl | he
      · exact had
      · exact lt_trans had (hlt e he)
    · rename_i had
      refine wf_cons.2 ⟨fun e he => ?_, hd, hu, ih hm' fun e he => h e (by simp [he])⟩
      rcases mem_addCell.1 he with rfl | he
      · simp only at had ⊢; omega
      · exact hlt e he

/-- A write keeps the canonical form. -/
theorem wf_write {m : Memory} {a : Nat} (w : Byte) (hm : m.wf) (ha : a < Config.memSize) : (m.write a w).wf := by
  unfold Memory.write
  split
  · exact wf_dropCell a hm
  · rename_i hw
    exact wf_addCell (wf_dropCell a hm) ha hw fun c hc => (mem_dropCell.1 hc).2

/-- What a range of written bytes reads as. -/
theorem read_writeBytes (m : Memory) (a : Nat) (ws : List Byte) (b : Nat) :
    (m.writeBytes a ws).read b = if h : a ≤ b ∧ b - a < ws.length then ws[b - a]'h.2 else m.read b := by
  induction ws generalizing m a with
  | nil => simp [Memory.writeBytes]
  | cons w ws ih =>
    rw [Memory.writeBytes, ih, read_write]
    simp only [List.length_cons]
    by_cases h1 : b = a
    · subst h1; simp
    · by_cases h2 : a + 1 ≤ b ∧ b - (a + 1) < ws.length
      · have h3 : a ≤ b ∧ b - a < ws.length + 1 := by omega
        rw [dif_pos h2, dif_pos h3]
        have h4 : b - a = (b - (a + 1)) + 1 := by omega
        simp only [h4, List.getElem_cons_succ]
      · have h3 : ¬ (a ≤ b ∧ b - a < ws.length + 1) := by omega
        rw [dif_neg h2, dif_neg h3, if_neg h1]

theorem length_bcdDigits (b : Byte) : (bcdDigits b).length = 3 := rfl

theorem length_firstV (s : State) {n : Nat} (h : n ≤ 16) : (s.firstV n).length = n := by
  simp [State.firstV]; omega

theorem getElem_firstV (s : State) (n j : Nat) (h : j < (s.firstV n).length) (hj : j < 16) :
    (s.firstV n)[j] = s.readV ⟨j, hj⟩ := by
  simp [State.firstV, State.readV]

@[simp] theorem length_readBytes (m : Memory) (a n : Nat) : (m.readBytes a n).length = n := by
  induction n generalizing a with
  | zero => rfl
  | succ n ih => simp [Memory.readBytes, ih]

theorem getElem_readBytes (m : Memory) (a n j : Nat) (h : j < (m.readBytes a n).length) :
    (m.readBytes a n)[j] = m.read (a + j) := by
  induction n generalizing a j with
  | zero => simp at h
  | succ n ih =>
    cases j with
    | zero => rfl
    | succ j =>
      simp only [Memory.readBytes, List.getElem_cons_succ]
      rw [ih (a + 1) j]; congr 1; omega

/-- A read of a range out of range is not made; one in range gives the bytes. -/
theorem memRead_eq (s : State) (a n : Nat) :
    s.memRead a n = if InRange a n then some (s.mem.readBytes a n) else none := rfl

/-- What a write in range can do: memory alone changes. -/
theorem memWrite_eq (s : State) (a : Nat) (ws : List Byte) :
    s.memWrite a ws = if InRange a ws.length then some { s with mem := s.mem.writeBytes a ws } else none := rfl

/-- Bytes written inside memory keep the canonical form. -/
theorem wf_writeBytes {m : Memory} {a : Nat} {ws : List Byte} (hm : m.wf) (h : a + ws.length ≤ Config.memSize) :
    (m.writeBytes a ws).wf := by
  induction ws generalizing m a with
  | nil => exact hm
  | cons w ws ih =>
    simp only [List.length_cons] at h
    exact ih (wf_write w hm (by simp only [Config.memSize] at *; omega)) (by omega)

theorem memWrite_wf {s t : State} {a : Nat} {ws : List Byte} (hm : s.mem.wf) (h : s.memWrite a ws = some t) :
    t.mem.wf := by
  rw [memWrite_eq] at h
  split at h
  · obtain rfl := Option.some.inj h
    rename_i hr
    cases ws with
    | nil => exact hm
    | cons w ws =>
      have := hr (by simp)
      exact wf_writeBytes hm (by simp only [Config.memSize, List.length_cons] at *; omega)
  · cases h

end Sys2Proof.Machine
end

