-- ==== Sys2Proof/Laws/Ops.lean ====
section
/-! SUPPORT. What each shared operation can do: registers, block loads, the call stack, the framebuffer, the key
bank, fetch, and how a handler ends. -/

namespace Sys2Proof.Machine

/-! ### Registers -/

theorem readV_setV (s : State) (r q : Reg) (b : Byte) :
    (s.setV r b).readV q = if q = r then b else s.readV q := by
  simp only [State.readV, State.setV, Vector.getElem_set, Fin.ext_iff, eq_comm]

@[simp] theorem readV_setV_self (s : State) (r : Reg) (b : Byte) : (s.setV r b).readV r = b := by
  simp [readV_setV]

theorem readV_setFlagThenV (s : State) (f : Byte) (x q : Reg) (b : Byte) :
    (s.setFlagThenV f x b).readV q = if q = x then b else if q = vf then f else s.readV q := by
  simp only [State.setFlagThenV, readV_setV]

/-- A block load changes V alone. -/
theorem loadBlock_eq (s : State) (j : Nat) (bs : List Byte) :
    s.loadBlock j bs = { s with v := (s.loadBlock j bs).v } := by
  induction bs generalizing s j with
  | nil => rfl
  | cons b bs ih => rw [State.loadBlock, ih]; rfl

/-- The registers after a block load that stays inside the register file. -/
theorem readV_loadBlock (s : State) (j : Nat) (bs : List Byte) (hj : j + bs.length ≤ 16) (q : Reg) :
    (s.loadBlock j bs).readV q =
      if h : j ≤ q.val ∧ q.val - j < bs.length then bs[q.val - j]'h.2 else s.readV q := by
  induction bs generalizing s j with
  | nil => simp [State.loadBlock]
  | cons b bs ih =>
    simp only [List.length_cons] at hj
    rw [State.loadBlock, ih _ _ (by omega), readV_setV]
    have hfin : (q = Fin.ofNat 16 j) ↔ q.val = j := by
      simp only [Fin.ext_iff, Fin.val_ofNat]
      rw [Nat.mod_eq_of_lt (by omega)]
    simp only [hfin, List.length_cons]
    by_cases h1 : q.val = j
    · have hn : ¬ (j + 1 ≤ q.val ∧ q.val - (j + 1) < bs.length) := by omega
      have hp : j ≤ q.val ∧ q.val - j < bs.length + 1 := by omega
      have h0 : q.val - j = 0 := by omega
      rw [dif_neg hn, dif_pos hp, if_pos h1]
      simp [h0]
    · by_cases h2 : j + 1 ≤ q.val ∧ q.val - (j + 1) < bs.length
      · have h3 : j ≤ q.val ∧ q.val - j < bs.length + 1 := by omega
        rw [dif_pos h2, dif_pos h3]
        have h4 : q.val - j = (q.val - (j + 1)) + 1 := by omega
        simp only [h4, List.getElem_cons_succ]
      · have h3 : ¬ (j ≤ q.val ∧ q.val - j < bs.length + 1) := by omega
        rw [dif_neg h2, dif_neg h3, if_neg h1]

/-! ### The call stack -/

theorem push_full {s : State} (w : Word) (h : s.sp.val = 16) : s.push w = none := by
  unfold State.push; rw [dif_neg (by omega)]

/-- What a push can do: one slot and SP change. -/
theorem push_of_lt {s : State} (w : Word) (h : s.sp.val < 16) :
    s.push w = some { s with stack := s.stack.set s.sp.val w, sp := ⟨s.sp.val + 1, by omega⟩ } := by
  unfold State.push; rw [dif_pos h]

theorem pop_empty {s : State} (h : s.sp.val = 0) : s.pop = none := by
  unfold State.pop; rw [dif_neg (by omega)]

/-- What a pop can do: SP alone changes, and the popped word is the slot's. -/
theorem pop_of_pos {s : State} (h : 0 < s.sp.val) :
    s.pop = some (s.stack[s.sp.val - 1]'(by omega), { s with sp := ⟨s.sp.val - 1, by omega⟩ }) := by
  unfold State.pop; rw [dif_pos h]

/-! ### The framebuffer -/

theorem cell_wrap (fb : Framebuffer) (x y : Nat) : fb.cell (x % 64) (y % 32) = fb.cell x y := by
  simp only [Framebuffer.cell, Nat.mod_mod]

/-- A toggle changes the one cell it wraps to. -/
theorem cell_toggle (fb : Framebuffer) (x y px py : Nat) :
    (fb.toggle x y).cell px py =
      if px % 64 = x % 64 ∧ py % 32 = y % 32 then !fb.cell x y else fb.cell px py := by
  unfold Framebuffer.toggle
  simp only [Framebuffer.cell]
  by_cases hy : py % 32 = y % 32
  · by_cases hx : px % 64 = x % 64
    · simp [hx, hy]
    · have hx' : ¬ x % 64 = px % 64 := fun h => hx h.symm
      simp [hx, hy, hx']
  · have hy' : ¬ y % 32 = py % 32 := fun h => hy h.symm
    simp [hy, hy']

@[simp] theorem cell_blank (px py : Nat) : Framebuffer.blank.cell px py = false := by
  simp [Framebuffer.blank, Framebuffer.cell]

/-- Two framebuffers with the same cells are equal. -/
theorem fb_ext {f g : Framebuffer} (h : ∀ (x : Fin 64) (y : Fin 32), f.cell x.val y.val = g.cell x.val y.val) :
    f = g := by
  apply Vector.ext
  intro y hy
  apply Vector.ext
  intro x hx
  have := h ⟨x, hx⟩ ⟨y, hy⟩
  simpa [Framebuffer.cell, Nat.mod_eq_of_lt hx, Nat.mod_eq_of_lt hy] using this

/-! ### Keys -/

theorem keyPressed_setKey (s : State) (k q : Key) (b : Bool) :
    (s.setKey k b).keyPressed q = if q = k then b else s.keyPressed q := by
  simp only [State.keyPressed, State.setKey, Vector.getElem_set, Fin.ext_iff, eq_comm]

theorem keyOperand_of_lt {b : Byte} (h : b.toNat < 16) : keyOperand b = some ⟨b.toNat, h⟩ := by
  unfold keyOperand; rw [dif_pos h]

theorem keyOperand_of_ge {b : Byte} (h : 16 ≤ b.toNat) : keyOperand b = none := by
  unfold keyOperand; rw [dif_neg (by omega)]

/-- No key is pressed exactly when there is no least one. -/
theorem leastKey_none_iff (s : State) : s.leastKey = none ↔ ∀ k : Key, s.keyPressed k = false := by
  simp only [State.leastKey, List.findIdx?_eq_none_iff, State.keyPressed, id]
  constructor
  · intro h k; exact h _ (by simp)
  · intro h x hx
    obtain ⟨j, hj, rfl⟩ := List.mem_iff_getElem.1 hx
    simpa using h ⟨j, by simpa using hj⟩

/-- The least pressed key is pressed and no lower one is. -/
theorem leastKey_some_iff (s : State) (j : Nat) :
    s.leastKey = some j ↔
      ∃ h : j < 16, s.keyPressed ⟨j, h⟩ = true ∧ ∀ k : Key, k.val < j → s.keyPressed k = false := by
  simp only [State.leastKey, List.findIdx?_eq_some_iff_getElem, State.keyPressed, id, Vector.length_toList,
    Vector.getElem_toList]
  constructor
  · rintro ⟨h, hk, hlt⟩
    exact ⟨h, hk, fun k hk' => by simpa using hlt k.val hk'⟩
  · rintro ⟨h, hk, hlt⟩
    exact ⟨h, hk, fun i hi => by simpa using hlt ⟨i, by omega⟩ hi⟩

/-! ### How a handler ends -/

@[simp] theorem complete_eq (a : Advance) (s : State) : complete a s = .next (s.advance a) := rfl

@[simp] theorem raiseIn_eq (i : Instr) (k : FaultKind) (info : Word) (s : State) :
    raiseIn i k info s = .next (s.raise k (some (encode i)) info) := rfl

theorem targetOk_iff (t : Nat) : targetOk t = true ↔ 0x200 ≤ t ∧ t ≤ 0xFFF := by
  simp [targetOk]

/-- A fault entry changes the status and the record alone. -/
theorem raise_onlyChanges (s : State) (k : FaultKind) (w : Option Word) (info : Word) :
    OnlyChanges [.status, .fault] s (s.raise k w info) := by
  intro p hp
  cases p <;> first | rfl | exact absurd (by simp) hp

/-! ### Fetch -/

theorem fetchWord_of_le {s : State} (h : s.pc.toNat + 1 ≤ 0xFFF) :
    s.fetchWord = some (wordOfBytes (s.mem.read s.pc.toNat) (s.mem.read (s.pc.toNat + 1))) := by
  unfold State.fetchWord; rw [if_pos h]

theorem fetchWord_of_gt {s : State} (h : 0xFFF < s.pc.toNat + 1) : s.fetchWord = none := by
  unfold State.fetchWord; rw [if_neg (by omega)]

theorem fetchWord_some {s : State} {w : Word} (h : s.fetchWord = some w) :
    s.pc.toNat + 1 ≤ 0xFFF ∧ wordOfBytes (s.mem.read s.pc.toNat) (s.mem.read (s.pc.toNat + 1)) = w := by
  unfold State.fetchWord at h
  split at h
  · exact ⟨by assumption, Option.some.inj h⟩
  · cases h

end Sys2Proof.Machine
end

