-- ==== Sys2Proof/Laws/Display.lean ====
section
/-! SUPPORT. What drawing a sprite does to the cells, the collision and the changed mark, said once. -/

namespace Sys2Proof.Machine

theorem spriteBit_eq (row : Byte) {c : Nat} (hc : c < 8) : spriteBit row c = row.getLsbD (7 - c) := by
  have key : ∀ row : BitVec 8, ∀ c : Fin 8, spriteBit row c.val = row.getLsbD (7 - c.val) := by decide +kernel
  exact key row ⟨c, hc⟩

/-- Column `c` of a row drawn at (x0, y) has its bit set and lies over the cell (px, py). -/
def PixelOver (x0 y : Nat) (row : Byte) (px py c : Nat) : Prop :=
  spriteBit row c = true ∧ (x0 + c) % 64 = px % 64 ∧ y % 32 = py % 32

theorem blitPixel_cell (x0 y : Nat) (row : Byte) (c : Nat) (b : Blit) (px py : Nat) :
    ((blitPixel x0 y row c b).fb.cell px py = b.fb.cell px py) ↔ ¬ PixelOver x0 y row px py c := by
  unfold blitPixel PixelOver
  by_cases hs : spriteBit row c = true
  · simp only [hs, if_true, true_and, cell_toggle]
    by_cases h : px % 64 = (x0 + c) % 64 ∧ py % 32 = y % 32
    · have h2 : (x0 + c) % 64 = px % 64 ∧ y % 32 = py % 32 := ⟨h.1.symm, h.2.symm⟩
      have h3 : b.fb.cell px py = b.fb.cell (x0 + c) y := by
        rw [← cell_wrap b.fb px py, h.1, h.2, cell_wrap]
      rw [if_pos h, h3]
      simp only [Bool.not_eq_eq_eq_not, h2, and_self, not_true, iff_false]
      cases b.fb.cell (x0 + c) y <;> decide
    · have h2 : ¬ ((x0 + c) % 64 = px % 64 ∧ y % 32 = py % 32) := fun h' => h ⟨h'.1.symm, h'.2.symm⟩
      rw [if_neg h]
      simp only [h2, not_false_iff]
  · simp [hs]

/-- Columns of a sprite row, none twice, drawn one after the other. -/
theorem blitColumns_spec (x0 y : Nat) (row : Byte) (cs : List Nat) (hn : cs.Nodup) (hc : ∀ c ∈ cs, c < 8) (b : Blit) :
    (∀ px py, ((cs.foldl (fun acc c => blitPixel x0 y row c acc) b).fb.cell px py = b.fb.cell px py) ↔
      ¬ ∃ c ∈ cs, PixelOver x0 y row px py c) ∧
    ((cs.foldl (fun acc c => blitPixel x0 y row c acc) b).collide = true ↔
      b.collide = true ∨ ∃ c ∈ cs, spriteBit row c = true ∧ b.fb.cell (x0 + c) y = true) ∧
    ((cs.foldl (fun acc c => blitPixel x0 y row c acc) b).changed = true ↔
      b.changed = true ∨ ∃ c ∈ cs, spriteBit row c = true) := by
  induction cs generalizing b with
  | nil => simp
  | cons c cs ih =>
    obtain ⟨hnc, hn'⟩ := List.nodup_cons.1 hn
    obtain ⟨h1, h2, h3⟩ := ih hn' (fun d hd => hc d (by simp [hd])) (blitPixel x0 y row c b)
    have hc8 := hc c (by simp)
    have hcell := blitPixel_cell x0 y row c b
    have hother : ∀ d ∈ cs, (x0 + d) % 64 ≠ (x0 + c) % 64 := by
      intro d hd h
      have h8 := hc d (by simp [hd])
      have : d ≠ c := fun e => hnc (e ▸ hd)
      omega
    refine ⟨fun px py => ?_, ?_, ?_⟩
    · simp only [List.foldl_cons, List.exists_mem_cons_iff]
      by_cases hp : PixelOver x0 y row px py c
      · have hno : ¬ ∃ d ∈ cs, PixelOver x0 y row px py d := by
          rintro ⟨d, hd, -, hx, -⟩
          exact hother d hd (hx.trans hp.2.1.symm)
        have e1 := (h1 px py).2 hno
        have e2 : ¬ _ := mt (hcell px py).1 (not_not.2 hp)
        rw [e1]
        simp [e2, hp]
      · have e2 := (hcell px py).2 hp
        rw [← e2, h1 px py]
        simp [hp]
    · simp only [List.foldl_cons, List.exists_mem_cons_iff]
      rw [h2]
      have hsame : ∀ d ∈ cs, (blitPixel x0 y row c b).fb.cell (x0 + d) y = b.fb.cell (x0 + d) y := by
        intro d hd
        refine (hcell _ _).2 fun hp => hother d hd hp.2.1.symm
      have hcol : (blitPixel x0 y row c b).collide = true ↔
          b.collide = true ∨ (spriteBit row c = true ∧ b.fb.cell (x0 + c) y = true) := by
        unfold blitPixel
        split <;> rename_i hs <;> simp [hs]
      rw [hcol, or_assoc]
      refine or_congr_right (or_congr_right ?_)
      exact exists_congr fun d => and_congr_right fun hd => by rw [hsame d hd]
    · simp only [List.foldl_cons, List.exists_mem_cons_iff]
      rw [h3]
      have hch : (blitPixel x0 y row c b).changed = true ↔ b.changed = true ∨ spriteBit row c = true := by
        unfold blitPixel
        split <;> rename_i hs <;> simp [hs]
      rw [hch, or_assoc]

theorem mem_spriteColumns (c : Nat) : c ∈ spriteColumns ↔ c < 8 := by
  simp only [spriteColumns, List.mem_cons, List.not_mem_nil, or_false]
  omega

/-- One sprite row. -/
theorem blitRow_spec (x0 y : Nat) (row : Byte) (b : Blit) :
    (∀ px py, ((blitRow x0 y row b).fb.cell px py = b.fb.cell px py) ↔
      ¬ ∃ c < 8, PixelOver x0 y row px py c) ∧
    ((blitRow x0 y row b).collide = true ↔
      b.collide = true ∨ ∃ c < 8, spriteBit row c = true ∧ b.fb.cell (x0 + c) y = true) ∧
    ((blitRow x0 y row b).changed = true ↔ b.changed = true ∨ ∃ c < 8, spriteBit row c = true) := by
  have h := blitColumns_spec x0 y row spriteColumns (by decide) (fun c hc => (mem_spriteColumns c).1 hc) b
  simp only [mem_spriteColumns] at h
  exact h

/-- A sprite of at most 32 rows: row `r`, column `c` toggles the cell it wraps to, no cell twice. -/
theorem blitRows_spec (x0 y : Nat) (rows : List Byte) (hl : rows.length ≤ 32) (b : Blit) :
    (∀ px py, ((blitRows x0 y rows b).fb.cell px py = b.fb.cell px py) ↔
      ¬ ∃ (r : Nat) (hr : r < rows.length) (c : Nat), c < 8 ∧ PixelOver x0 (y + r) rows[r] px py c) ∧
    ((blitRows x0 y rows b).collide = true ↔
      b.collide = true ∨ ∃ (r : Nat) (hr : r < rows.length) (c : Nat), c < 8 ∧ spriteBit rows[r] c = true ∧
        b.fb.cell (x0 + c) (y + r) = true) ∧
    ((blitRows x0 y rows b).changed = true ↔
      b.changed = true ∨ ∃ (r : Nat) (hr : r < rows.length) (c : Nat), c < 8 ∧ spriteBit rows[r] c = true) := by
  induction rows generalizing y b with
  | nil => simp [blitRows]
  | cons row rows ih =>
    simp only [List.length_cons] at hl
    obtain ⟨i1, i2, i3⟩ := ih (y + 1) (by omega) (blitRow x0 y row b)
    obtain ⟨r1, r2, r3⟩ := blitRow_spec x0 y row b
    have split : ∀ P : (r : Nat) → r < (row :: rows).length → Prop,
        (∃ (r : Nat) (hr : r < (row :: rows).length), P r hr) ↔
          P 0 (by simp) ∨ ∃ (r : Nat) (hr : r < rows.length), P (r + 1) (by simpa using hr) := by
      intro P
      constructor
      · rintro ⟨r, hr, hp⟩
        cases r with
        | zero => exact .inl hp
        | succ r => exact .inr ⟨r, by simpa using hr, hp⟩
      · rintro (hp | ⟨r, hr, hp⟩)
        · exact ⟨0, by simp, hp⟩
        · exact ⟨r + 1, by simpa using hr, hp⟩
    have hy : ∀ r, y + 1 + r = y + (r + 1) := fun r => by omega
    simp only [hy] at i1 i2 i3
    refine ⟨fun px py => ?_, ?_, ?_⟩
    · rw [split]
      simp only [List.getElem_cons_zero, List.getElem_cons_succ, Nat.add_zero]
      show ((blitRows x0 (y + 1) rows (blitRow x0 y row b)).fb.cell px py = _) ↔ _
      by_cases hp : ∃ c < 8, PixelOver x0 y row px py c
      · have hno : ¬ ∃ (r : Nat) (hr : r < rows.length) (c : Nat), c < 8 ∧
            PixelOver x0 (y + (r + 1)) rows[r] px py c := by
          rintro ⟨r, hr, c, -, -, -, h32⟩
          obtain ⟨d, -, -, -, h32'⟩ := hp
          omega
        have e2 : ¬ _ := mt (r1 px py).1 (not_not.2 hp)
        rw [(i1 px py).2 hno]
        simp only [e2, false_iff, not_not]
        exact .inl hp
      · rw [← (r1 px py).2 hp, i1 px py]
        simp only [hp, false_or]
    · rw [split]
      simp only [List.getElem_cons_zero, List.getElem_cons_succ, Nat.add_zero]
      show (blitRows x0 (y + 1) rows (blitRow x0 y row b)).collide = true ↔ _
      rw [i2, r2, or_assoc]
      refine or_congr_right (or_congr_right ?_)
      refine exists_congr fun r => exists_congr fun hr => exists_congr fun c => and_congr_right fun hc => ?_
      refine and_congr_right fun _ => ?_
      rw [(r1 (x0 + c) (y + (r + 1))).2]
      rintro ⟨d, -, -, -, h32⟩
      omega
    · rw [split]
      simp only [List.getElem_cons_zero, List.getElem_cons_succ]
      show (blitRows x0 (y + 1) rows (blitRow x0 y row b)).changed = true ↔ _
      rw [i3, r3, or_assoc]

end Sys2Proof.Machine
end

