-- ==== Sys2Proof/Laws/Encoding.lean ====
section
/-! SUPPORT. The fields of the three word formats (spec/30_encoding.md R42, R43). -/

namespace Sys2Proof

theorem nibble1_toNat (w : Word) : (nibble1 w).toNat = w.toNat / 0x1000 := by
  have := w.isLt
  simp only [nibble1, BitVec.extractLsb_toNat, Nat.shiftRight_eq_div_pow]
  norm_num
  omega

theorem nibble4_toNat (w : Word) : (nibble4 w).toNat = w.toNat % 0x10 := by
  simp [nibble4, BitVec.extractLsb_toNat]

theorem lowByte_toNat (w : Word) : (lowByte w).toNat = w.toNat % 0x100 := by
  simp [lowByte, BitVec.extractLsb_toNat]

theorem fieldX_val (w : Word) : (fieldX w).val = w.toNat / 0x100 % 0x10 := by
  show (w.extractLsb 11 8).toNat = _
  simp [BitVec.extractLsb_toNat, Nat.shiftRight_eq_div_pow]

theorem fieldY_val (w : Word) : (fieldY w).val = w.toNat / 0x10 % 0x10 := by
  show (w.extractLsb 7 4).toNat = _
  simp [BitVec.extractLsb_toNat, Nat.shiftRight_eq_div_pow]

theorem fieldNNN_toNat (w : Word) : (fieldNNN w).toNat = w.toNat % 0x1000 := by
  have h : w.toNat % 4096 < 65536 := by omega
  simp [fieldNNN, BitVec.extractLsb_toNat, Nat.mod_eq_of_lt h]

theorem append_toNat {m n : Nat} (a : BitVec m) (b : BitVec n) : (a ++ b).toNat = a.toNat * 2 ^ n + b.toNat := by
  rw [BitVec.toNat_append, ← Nat.shiftLeft_add_eq_or_of_lt b.isLt, Nat.shiftLeft_eq]

theorem wordNNN_toNat (op : BitVec 4) (nnn : Word) :
    (wordNNN op nnn).toNat = op.toNat * 0x1000 + nnn.toNat % 0x1000 := by
  show (op ++ nnn.extractLsb 11 0).toNat = _
  rw [append_toNat]
  simp [BitVec.extractLsb_toNat]

theorem wordXKK_toNat (op : BitVec 4) (x : Reg) (kk : Byte) :
    (wordXKK op x kk).toNat = op.toNat * 0x1000 + x.val * 0x100 + kk.toNat := by
  show (op ++ BitVec.ofFin (w := 4) x ++ kk).toNat = _
  rw [append_toNat, append_toNat]
  show (op.toNat * 2 ^ 4 + x.val) * 2 ^ 8 + kk.toNat = _
  ring

theorem wordXYN_toNat (op : BitVec 4) (x y : Reg) (n : BitVec 4) :
    (wordXYN op x y n).toNat = op.toNat * 0x1000 + x.val * 0x100 + y.val * 0x10 + n.toNat := by
  show (op ++ BitVec.ofFin (w := 4) x ++ BitVec.ofFin (w := 4) y ++ n).toNat = _
  rw [append_toNat, append_toNat, append_toNat]
  show ((op.toNat * 2 ^ 4 + x.val) * 2 ^ 4 + y.val) * 2 ^ 4 + n.toNat = _
  ring

theorem wordOfBytes_toNat (hi lo : Byte) : (wordOfBytes hi lo).toNat = hi.toNat * 0x100 + lo.toNat := by
  show (hi ++ lo).toNat = _
  rw [append_toNat]
  norm_num

/-- A word is the word of its two bytes. -/
theorem wordOfBytes_bytes (w : Word) : wordOfBytes (highByteOf w) (lowByteOf w) = w := by
  apply BitVec.eq_of_toNat_eq
  rw [wordOfBytes_toNat]
  have := w.isLt
  simp only [highByteOf, lowByteOf, BitVec.extractLsb_toNat, Nat.shiftRight_eq_div_pow]
  norm_num
  omega

section
variable (op : BitVec 4) (x y : Reg) (kk : Byte) (n : BitVec 4) (nnn : Word)

@[simp] theorem nibble1_wordNNN : nibble1 (wordNNN op nnn) = op := by
  apply BitVec.eq_of_toNat_eq
  have := op.isLt
  rw [nibble1_toNat, wordNNN_toNat]
  omega

@[simp] theorem fieldNNN_wordNNN : (fieldNNN (wordNNN op nnn)).toNat = nnn.toNat % 0x1000 := by
  rw [fieldNNN_toNat, wordNNN_toNat]
  omega

@[simp] theorem nibble1_wordXKK : nibble1 (wordXKK op x kk) = op := by
  apply BitVec.eq_of_toNat_eq
  have := op.isLt
  have := x.isLt
  have := kk.isLt
  rw [nibble1_toNat, wordXKK_toNat]
  omega

@[simp] theorem fieldX_wordXKK : fieldX (wordXKK op x kk) = x := by
  apply Fin.ext
  have := x.isLt
  have := kk.isLt
  rw [fieldX_val, wordXKK_toNat]
  omega

@[simp] theorem lowByte_wordXKK : lowByte (wordXKK op x kk) = kk := by
  apply BitVec.eq_of_toNat_eq
  have := kk.isLt
  rw [lowByte_toNat, wordXKK_toNat]
  omega

@[simp] theorem nibble1_wordXYN : nibble1 (wordXYN op x y n) = op := by
  apply BitVec.eq_of_toNat_eq
  have := op.isLt
  have := x.isLt
  have := y.isLt
  have := n.isLt
  rw [nibble1_toNat, wordXYN_toNat]
  omega

@[simp] theorem fieldX_wordXYN : fieldX (wordXYN op x y n) = x := by
  apply Fin.ext
  have := x.isLt
  have := y.isLt
  have := n.isLt
  rw [fieldX_val, wordXYN_toNat]
  omega

@[simp] theorem fieldY_wordXYN : fieldY (wordXYN op x y n) = y := by
  apply Fin.ext
  have := y.isLt
  have := n.isLt
  rw [fieldY_val, wordXYN_toNat]
  omega

@[simp] theorem nibble4_wordXYN : nibble4 (wordXYN op x y n) = n := by
  apply BitVec.eq_of_toNat_eq
  have := n.isLt
  rw [nibble4_toNat, wordXYN_toNat]
  omega

end

end Sys2Proof
end

