-- ==== Sys2Proof/Laws/Step.lean ====
section
/-! SUPPORT. Everything a Step can do, said once: it changes nothing, ends the run, raises a fetch or decode error,
or executes the decoded instruction. -/

namespace Sys2Proof.Machine

theorem step_of_not_running {s : State} (h : s.status ≠ .running) : step s = .next s := by
  unfold step cycle
  split <;> simp_all

theorem step_of_fetch_none {s : State} (h : s.status = .running) (hf : s.fetchWord = none) :
    step s = .next (s.raise .boundsError none s.pc) := by
  unfold step cycle runCycle
  rw [h, hf]

theorem step_of_sentinel {s : State} (h : s.status = .running) (hf : s.fetchWord = some 0x0000#16) :
    step s = .next s.endRun := by
  unfold step cycle runCycle
  rw [h, hf]
  rfl

theorem step_of_unknown {s : State} {w : Word} (h : s.status = .running) (hf : s.fetchWord = some w)
    (h0 : w ≠ 0x0000#16) (hd : decodeWord w = none) :
    step s = .next (s.raise .unknownOpcode (some w) w) := by
  unfold step cycle runCycle decodeAndExec
  rw [h, hf]
  simp only [if_neg h0, hd]

theorem step_of_known {s : State} {w : Word} {i : Instr} (h : s.status = .running) (hf : s.fetchWord = some w)
    (h0 : w ≠ 0x0000#16) (hd : decodeWord w = some i) : step s = exec i s := by
  unfold step cycle runCycle decodeAndExec
  rw [h, hf]
  simp only [if_neg h0, hd]

/-- The sentinel is no instruction. -/
theorem decodeWord_sentinel : decodeWord 0x0000#16 = none := by decide

/-- Every case of a Step that answers `t`. -/
theorem step_cases {s t : State} (h : step s = .next t) :
    (s.status ≠ .running ∧ t = s) ∨
    (s.status = .running ∧ s.fetchWord = none ∧ t = s.raise .boundsError none s.pc) ∨
    (s.status = .running ∧ s.fetchWord = some 0x0000#16 ∧ t = s.endRun) ∨
    (∃ w, s.status = .running ∧ s.fetchWord = some w ∧ w ≠ 0x0000#16 ∧ decodeWord w = none ∧
      t = s.raise .unknownOpcode (some w) w) ∨
    (∃ w i, s.status = .running ∧ s.fetchWord = some w ∧ decodeWord w = some i ∧ exec i s = .next t) := by
  by_cases hr : s.status = .running
  · cases hf : s.fetchWord with
    | none =>
      rw [step_of_fetch_none hr hf] at h
      exact .inr (.inl ⟨hr, rfl, (Host.Outcome.next.inj h).symm⟩)
    | some w =>
      by_cases h0 : w = 0x0000#16
      · subst h0
        rw [step_of_sentinel hr hf] at h
        exact .inr (.inr (.inl ⟨hr, rfl, (Host.Outcome.next.inj h).symm⟩))
      · cases hd : decodeWord w with
        | none =>
          rw [step_of_unknown hr hf h0 hd] at h
          exact .inr (.inr (.inr (.inl ⟨w, hr, rfl, h0, hd, (Host.Outcome.next.inj h).symm⟩)))
        | some i =>
          rw [step_of_known hr hf h0 hd] at h
          exact .inr (.inr (.inr (.inr ⟨w, i, hr, rfl, hd, h⟩)))
  · rw [step_of_not_running hr] at h
    exact .inl ⟨hr, (Host.Outcome.next.inj h).symm⟩

end Sys2Proof.Machine
end

