-- ==== Sys2Proof/Laws/Exec.lean ====
section
/-! SUPPORT. For each instruction that can raise a runtime error or take one of two ways, every case of its meaning,
said once: the condition and the state it answers. The meaning of every other instruction is one `complete`. -/

namespace Sys2Proof.Machine

theorem execRet_cases {s t : State} (h : execRet s = .next t) :
    (s.sp.val = 0 ∧ t = s.raise .stackUnderflow (some (encode .ret)) s.pc) ∨
    (∃ j : Fin 16, j.val + 1 = s.sp.val ∧
      t = (({ s with sp := ⟨j.val, by omega⟩ } : State).setPc s.stack[j.val]).advance .next) := by
  unfold execRet at h
  by_cases h0 : s.sp.val = 0
  · rw [pop_empty h0] at h
    exact .inl ⟨h0, (Host.Outcome.next.inj h).symm⟩
  · have hlt := s.sp.isLt
    rw [pop_of_pos (by omega)] at h
    exact .inr ⟨⟨s.sp.val - 1, by omega⟩, by show s.sp.val - 1 + 1 = _; omega, (Host.Outcome.next.inj h).symm⟩

theorem jumpTo_cases {i : Instr} {n : Nat} {s t : State} (h : jumpTo i n s = .next t) :
    (¬ (0x200 ≤ n ∧ n ≤ 0xFFF) ∧ t = s.raise .addressError (some (encode i)) (BitVec.ofNat 16 n)) ∨
    (0x200 ≤ n ∧ n ≤ 0xFFF ∧ t = (s.setPc (BitVec.ofNat 16 n)).advance .none) := by
  unfold jumpTo at h
  split at h
  · rename_i hn
    obtain ⟨h1, h2⟩ := (targetOk_iff n).1 hn
    exact .inr ⟨h1, h2, (Host.Outcome.next.inj h).symm⟩
  · rename_i hn
    exact .inl ⟨mt (targetOk_iff n).2 hn, (Host.Outcome.next.inj h).symm⟩

theorem execCall_cases {nnn : Word} {s t : State} (h : execCall nnn s = .next t) :
    (¬ (0x200 ≤ nnn.toNat ∧ nnn.toNat ≤ 0xFFF) ∧ t = s.raise .addressError (some (encode (.call nnn))) nnn) ∨
    (0x200 ≤ nnn.toNat ∧ nnn.toNat ≤ 0xFFF ∧ s.sp.val = 16 ∧
      t = s.raise .stackOverflow (some (encode (.call nnn))) s.pc) ∨
    (0x200 ≤ nnn.toNat ∧ nnn.toNat ≤ 0xFFF ∧ ∃ hlt : s.sp.val < 16,
      t = (({ s with stack := s.stack.set s.sp.val s.pc, sp := ⟨s.sp.val + 1, by omega⟩ } : State).setPc nnn).advance
        .none) := by
  unfold execCall at h
  split at h
  · rename_i hn
    obtain ⟨h1, h2⟩ := (targetOk_iff nnn.toNat).1 hn
    by_cases hlt : s.sp.val < 16
    · rw [push_of_lt _ hlt] at h
      exact .inr (.inr ⟨h1, h2, hlt, (Host.Outcome.next.inj h).symm⟩)
    · have h16 : s.sp.val = 16 := by have := s.sp.isLt; omega
      rw [push_full _ h16] at h
      exact .inr (.inl ⟨h1, h2, h16, (Host.Outcome.next.inj h).symm⟩)
  · rename_i hn
    exact .inl ⟨mt (targetOk_iff nnn.toNat).2 hn, (Host.Outcome.next.inj h).symm⟩

theorem execLdB_cases {x : Reg} {s t : State} (h : execLdB x s = .next t) :
    (0xFFF < indexAddr s + 2 ∧ t = s.raise .boundsError (some (encode (.ldB x))) s.i) ∨
    (indexAddr s + 2 ≤ 0xFFF ∧
      t = ({ s with mem := s.mem.writeBytes (indexAddr s) (bcdDigits (s.readV x)) } : State).advance .next) := by
  unfold execLdB at h
  rw [memWrite_eq] at h
  by_cases hr : InRange (indexAddr s) (bcdDigits (s.readV x)).length
  · rw [if_pos hr] at h
    rw [length_bcdDigits] at hr
    have := hr (by omega)
    exact .inr ⟨by omega, (Host.Outcome.next.inj h).symm⟩
  · rw [if_neg hr] at h
    rw [length_bcdDigits] at hr
    have : ¬ indexAddr s + 2 ≤ 0xFFF := fun h' => hr fun _ => by omega
    exact .inl ⟨by omega, (Host.Outcome.next.inj h).symm⟩

theorem execLdMemVx_cases {x : Reg} {s t : State} (h : execLdMemVx x s = .next t) :
    (0xFFF < indexAddr s + x.val ∧ t = s.raise .boundsError (some (encode (.ldMemVx x))) s.i) ∨
    (indexAddr s + x.val ≤ 0xFFF ∧
      t = (({ s with mem := s.mem.writeBytes (indexAddr s) (s.firstV (blockCount x)) } : State).setI
        (indexAfterBlock s x)).advance .next) := by
  have hl : (s.firstV (blockCount x)).length = x.val + 1 := length_firstV s (by unfold blockCount; omega)
  unfold execLdMemVx at h
  rw [memWrite_eq] at h
  by_cases hr : InRange (indexAddr s) (s.firstV (blockCount x)).length
  · rw [if_pos hr] at h
    rw [hl] at hr
    have := hr (by omega)
    exact .inr ⟨by omega, (Host.Outcome.next.inj h).symm⟩
  · rw [if_neg hr] at h
    rw [hl] at hr
    have : ¬ indexAddr s + x.val ≤ 0xFFF := fun h' => hr fun _ => by omega
    exact .inl ⟨by omega, (Host.Outcome.next.inj h).symm⟩

theorem execLdVxMem_cases {x : Reg} {s t : State} (h : execLdVxMem x s = .next t) :
    (0xFFF < indexAddr s + x.val ∧ t = s.raise .boundsError (some (encode (.ldVxMem x))) s.i) ∨
    (indexAddr s + x.val ≤ 0xFFF ∧
      t = ((s.loadBlock 0 (s.mem.readBytes (indexAddr s) (blockCount x))).setI (indexAfterBlock s x)).advance
        .next) := by
  unfold execLdVxMem at h
  rw [memRead_eq] at h
  by_cases hr : InRange (indexAddr s) (blockCount x)
  · rw [if_pos hr] at h
    have := hr (Nat.succ_pos _)
    unfold blockCount at this
    exact .inr ⟨by omega, (Host.Outcome.next.inj h).symm⟩
  · rw [if_neg hr] at h
    have : ¬ indexAddr s + x.val ≤ 0xFFF := fun h' => hr fun _ => by unfold blockCount; omega
    exact .inl ⟨by omega, (Host.Outcome.next.inj h).symm⟩

theorem execDrw_cases {x y : Reg} {n : Nat} {s t : State} (h : execDrw x y n s = .next t) :
    (0 < n ∧ 0xFFF < indexAddr s + n - 1 ∧ t = s.raise .boundsError (some (encode (.drw x y n))) s.i) ∨
    (InRange (indexAddr s) n ∧ ∃ b : Blit,
      b = blitRows (s.readV x).toNat (s.readV y).toNat (s.mem.readBytes (indexAddr s) n) ⟨s.fb, false, false⟩ ∧
      t = ((s.setScreen b.fb (s.drawFlag || b.changed)).setV vf (boolByte b.collide)).advance .next) := by
  unfold execDrw at h
  rw [memRead_eq] at h
  by_cases hr : InRange (indexAddr s) n
  · rw [if_pos hr] at h
    exact .inr ⟨hr, _, rfl, (Host.Outcome.next.inj h).symm⟩
  · rw [if_neg hr] at h
    have h0 : 0 < n := Nat.pos_of_ne_zero fun h0 => hr fun h' => absurd h' (by omega)
    have h1 : ¬ indexAddr s + n - 1 ≤ 0xFFF := fun h' => hr fun _ => h'
    exact .inl ⟨h0, by omega, (Host.Outcome.next.inj h).symm⟩

theorem execSkp_cases {x : Reg} {s t : State} (h : execSkp x s = .next t) :
    (0xF < (s.readV x).toNat ∧ t = s.raise .boundsError (some (encode (.skp x))) ((s.readV x).zeroExtend 16)) ∨
    (∃ k : Key, (s.readV x).toNat = k.val ∧ t = s.advance (skipIf (s.keyPressed k))) := by
  unfold execSkp at h
  by_cases hk : (s.readV x).toNat < 16
  · rw [keyOperand_of_lt hk] at h
    exact .inr ⟨⟨_, hk⟩, rfl, (Host.Outcome.next.inj h).symm⟩
  · rw [keyOperand_of_ge (by omega)] at h
    exact .inl ⟨by omega, (Host.Outcome.next.inj h).symm⟩

theorem execSknp_cases {x : Reg} {s t : State} (h : execSknp x s = .next t) :
    (0xF < (s.readV x).toNat ∧ t = s.raise .boundsError (some (encode (.sknp x))) ((s.readV x).zeroExtend 16)) ∨
    (∃ k : Key, (s.readV x).toNat = k.val ∧ t = s.advance (skipIf (!s.keyPressed k))) := by
  unfold execSknp at h
  by_cases hk : (s.readV x).toNat < 16
  · rw [keyOperand_of_lt hk] at h
    exact .inr ⟨⟨_, hk⟩, rfl, (Host.Outcome.next.inj h).symm⟩
  · rw [keyOperand_of_ge (by omega)] at h
    exact .inl ⟨by omega, (Host.Outcome.next.inj h).symm⟩

theorem execLdVxK_cases {x : Reg} {s t : State} (h : execLdVxK x s = .next t) :
    ((∀ k : Key, s.keyPressed k = false) ∧ t = s.advance .none) ∨
    (∃ k : Key, s.keyPressed k = true ∧ (∀ j : Key, j.val < k.val → s.keyPressed j = false) ∧
      t = (s.setV x (BitVec.ofNat 8 k.val)).advance .next) := by
  unfold execLdVxK at h
  cases hk : s.leastKey with
  | none =>
    rw [hk] at h
    exact .inl ⟨(leastKey_none_iff s).1 hk, (Host.Outcome.next.inj h).symm⟩
  | some k =>
    rw [hk] at h
    obtain ⟨h16, hp, hl⟩ := (leastKey_some_iff s k).1 hk
    exact .inr ⟨⟨k, h16⟩, hp, hl, (Host.Outcome.next.inj h).symm⟩

/-- Every instruction either raises a runtime error and does nothing else, or leaves the status, the fault record and
the keys as they were. -/
theorem exec_raises_or_keeps {i : Instr} {s t : State} (h : exec i s = .next t) :
    (∃ k info, t = s.raise k (some (encode i)) info) ∨
    (t.status = s.status ∧ t.fault = s.fault ∧ t.keys = s.keys) := by
  cases i
  case ret =>
    rcases execRet_cases h with ⟨_, rfl⟩ | ⟨j, hj, rfl⟩
    · exact .inl ⟨_, _, rfl⟩
    · exact .inr ⟨rfl, rfl, rfl⟩
  case jp =>
    rcases jumpTo_cases h with ⟨_, rfl⟩ | ⟨_, _, rfl⟩
    · exact .inl ⟨_, _, rfl⟩
    · exact .inr ⟨rfl, rfl, rfl⟩
  case jpV0 =>
    rcases jumpTo_cases h with ⟨_, rfl⟩ | ⟨_, _, rfl⟩
    · exact .inl ⟨_, _, rfl⟩
    · exact .inr ⟨rfl, rfl, rfl⟩
  case call =>
    rcases execCall_cases h with ⟨_, rfl⟩ | ⟨_, _, _, rfl⟩ | ⟨_, _, _, rfl⟩
    · exact .inl ⟨_, _, rfl⟩
    · exact .inl ⟨_, _, rfl⟩
    · exact .inr ⟨rfl, rfl, rfl⟩
  case ldB =>
    rcases execLdB_cases h with ⟨_, rfl⟩ | ⟨_, rfl⟩
    · exact .inl ⟨_, _, rfl⟩
    · exact .inr ⟨rfl, rfl, rfl⟩
  case ldMemVx =>
    rcases execLdMemVx_cases h with ⟨_, rfl⟩ | ⟨_, rfl⟩
    · exact .inl ⟨_, _, rfl⟩
    · exact .inr ⟨rfl, rfl, rfl⟩
  case ldVxMem =>
    rcases execLdVxMem_cases h with ⟨_, rfl⟩ | ⟨_, rfl⟩
    · exact .inl ⟨_, _, rfl⟩
    · rw [loadBlock_eq]
      exact .inr ⟨rfl, rfl, rfl⟩
  case drw =>
    rcases execDrw_cases h with ⟨_, _, rfl⟩ | ⟨_, b, _, rfl⟩
    · exact .inl ⟨_, _, rfl⟩
    · exact .inr ⟨rfl, rfl, rfl⟩
  case skp =>
    rcases execSkp_cases h with ⟨_, rfl⟩ | ⟨_, _, rfl⟩
    · exact .inl ⟨_, _, rfl⟩
    · exact .inr ⟨rfl, rfl, rfl⟩
  case sknp =>
    rcases execSknp_cases h with ⟨_, rfl⟩ | ⟨_, _, rfl⟩
    · exact .inl ⟨_, _, rfl⟩
    · exact .inr ⟨rfl, rfl, rfl⟩
  case ldVxK => rcases execLdVxK_cases h with ⟨_, rfl⟩ | ⟨_, _, _, rfl⟩ <;> exact .inr ⟨rfl, rfl, rfl⟩
  all_goals
    obtain rfl := Host.Outcome.next.inj h
    exact .inr ⟨rfl, rfl, rfl⟩

end Sys2Proof.Machine
end

