-- ==== Sys2Proof/Laws/PerInstr.lean ====
section
/-! SUPPORT. The family RowMatch: the word of every instruction lies in its row of spec/opcode_table.json. -/

namespace Sys2Proof.Laws.RowMatch

/-- The encoded word has every fixed field of its row. -/
def Statement (i : Instr) : Prop := ∀ f ∈ opcodeRow i, hasField (encode i) f

/-- A row whose one fixed field is nibble 1. -/
theorem fixed_nibble1 {w : Word} {op : BitVec 4} (h : nibble1 w = op) :
    ∀ f ∈ [(15, 12, op.toNat)], hasField w f := by
  have h1 := congrArg BitVec.toNat h
  have := w.isLt
  rw [nibble1_toNat] at h1
  simp only [List.mem_singleton, forall_eq, hasField]
  omega

/-- A row whose fixed fields are nibbles 1 and 4. -/
theorem fixed_nibbles14 {w : Word} {op n : BitVec 4} (h : nibble1 w = op) (h4 : nibble4 w = n) :
    ∀ f ∈ [(15, 12, op.toNat), (3, 0, n.toNat)], hasField w f := by
  have h1 := congrArg BitVec.toNat h4
  rw [nibble4_toNat] at h1
  simp only [List.mem_cons, List.not_mem_nil, or_false, forall_eq_or_imp, forall_eq]
  refine ⟨fixed_nibble1 h _ (by simp), ?_⟩
  simp only [hasField]
  omega

/-- A row whose fixed fields are nibble 1 and the low byte. -/
theorem fixed_nibble1_low {w : Word} {op : BitVec 4} {kk : Byte} (h : nibble1 w = op) (hl : lowByte w = kk) :
    ∀ f ∈ [(15, 12, op.toNat), (7, 0, kk.toNat)], hasField w f := by
  have h1 := congrArg BitVec.toNat hl
  rw [lowByte_toNat] at h1
  simp only [List.mem_cons, List.not_mem_nil, or_false, forall_eq_or_imp, forall_eq]
  refine ⟨fixed_nibble1 h _ (by simp), ?_⟩
  simp only [hasField]
  omega

theorem cls : Statement .cls := by
  simp [Statement, opcodeRow, hasField, encode]

theorem ret : Statement .ret := by
  simp [Statement, opcodeRow, hasField, encode]

theorem jp (nnn : Word) : Statement (.jp nnn) :=
  fixed_nibble1 (nibble1_wordNNN 0x1#4 nnn)

theorem call (nnn : Word) : Statement (.call nnn) :=
  fixed_nibble1 (nibble1_wordNNN 0x2#4 nnn)

theorem seImm (x : Reg) (kk : Byte) : Statement (.seImm x kk) :=
  fixed_nibble1 (nibble1_wordXKK 0x3#4 x kk)

theorem sneImm (x : Reg) (kk : Byte) : Statement (.sneImm x kk) :=
  fixed_nibble1 (nibble1_wordXKK 0x4#4 x kk)

theorem seReg (x y : Reg) : Statement (.seReg x y) :=
  fixed_nibble1 (nibble1_wordXYN 0x5#4 x y 0x0#4)

theorem ldImm (x : Reg) (kk : Byte) : Statement (.ldImm x kk) :=
  fixed_nibble1 (nibble1_wordXKK 0x6#4 x kk)

theorem addImm (x : Reg) (kk : Byte) : Statement (.addImm x kk) :=
  fixed_nibble1 (nibble1_wordXKK 0x7#4 x kk)

theorem ldReg (x y : Reg) : Statement (.ldReg x y) :=
  fixed_nibbles14 (nibble1_wordXYN 0x8#4 x y 0x0#4) (nibble4_wordXYN 0x8#4 x y 0x0#4)

theorem orReg (x y : Reg) : Statement (.orReg x y) :=
  fixed_nibbles14 (nibble1_wordXYN 0x8#4 x y 0x1#4) (nibble4_wordXYN 0x8#4 x y 0x1#4)

theorem andReg (x y : Reg) : Statement (.andReg x y) :=
  fixed_nibbles14 (nibble1_wordXYN 0x8#4 x y 0x2#4) (nibble4_wordXYN 0x8#4 x y 0x2#4)

theorem xorReg (x y : Reg) : Statement (.xorReg x y) :=
  fixed_nibbles14 (nibble1_wordXYN 0x8#4 x y 0x3#4) (nibble4_wordXYN 0x8#4 x y 0x3#4)

theorem addReg (x y : Reg) : Statement (.addReg x y) :=
  fixed_nibbles14 (nibble1_wordXYN 0x8#4 x y 0x4#4) (nibble4_wordXYN 0x8#4 x y 0x4#4)

theorem sub (x y : Reg) : Statement (.sub x y) :=
  fixed_nibbles14 (nibble1_wordXYN 0x8#4 x y 0x5#4) (nibble4_wordXYN 0x8#4 x y 0x5#4)

theorem shr (x y : Reg) : Statement (.shr x y) :=
  fixed_nibbles14 (nibble1_wordXYN 0x8#4 x y 0x6#4) (nibble4_wordXYN 0x8#4 x y 0x6#4)

theorem subn (x y : Reg) : Statement (.subn x y) :=
  fixed_nibbles14 (nibble1_wordXYN 0x8#4 x y 0x7#4) (nibble4_wordXYN 0x8#4 x y 0x7#4)

theorem shl (x y : Reg) : Statement (.shl x y) :=
  fixed_nibbles14 (nibble1_wordXYN 0x8#4 x y 0xE#4) (nibble4_wordXYN 0x8#4 x y 0xE#4)

theorem sneReg (x y : Reg) : Statement (.sneReg x y) :=
  fixed_nibble1 (nibble1_wordXYN 0x9#4 x y 0x0#4)

theorem ldI (nnn : Word) : Statement (.ldI nnn) :=
  fixed_nibble1 (nibble1_wordNNN 0xA#4 nnn)

theorem jpV0 (nnn : Word) : Statement (.jpV0 nnn) :=
  fixed_nibble1 (nibble1_wordNNN 0xB#4 nnn)

theorem rnd (x : Reg) (kk : Byte) : Statement (.rnd x kk) :=
  fixed_nibble1 (nibble1_wordXKK 0xC#4 x kk)

theorem drw (x y : Reg) (n : Nat) : Statement (.drw x y n) :=
  fixed_nibble1 (nibble1_wordXYN 0xD#4 x y (BitVec.ofNat 4 n))

theorem skp (x : Reg) : Statement (.skp x) :=
  fixed_nibble1_low (nibble1_wordXKK 0xE#4 x 0x9E#8) (lowByte_wordXKK 0xE#4 x 0x9E#8)

theorem sknp (x : Reg) : Statement (.sknp x) :=
  fixed_nibble1_low (nibble1_wordXKK 0xE#4 x 0xA1#8) (lowByte_wordXKK 0xE#4 x 0xA1#8)

theorem ldVxDt (x : Reg) : Statement (.ldVxDt x) :=
  fixed_nibble1_low (nibble1_wordXKK 0xF#4 x 0x07#8) (lowByte_wordXKK 0xF#4 x 0x07#8)

theorem ldVxK (x : Reg) : Statement (.ldVxK x) :=
  fixed_nibble1_low (nibble1_wordXKK 0xF#4 x 0x0A#8) (lowByte_wordXKK 0xF#4 x 0x0A#8)

theorem ldDtVx (x : Reg) : Statement (.ldDtVx x) :=
  fixed_nibble1_low (nibble1_wordXKK 0xF#4 x 0x15#8) (lowByte_wordXKK 0xF#4 x 0x15#8)

theorem ldStVx (x : Reg) : Statement (.ldStVx x) :=
  fixed_nibble1_low (nibble1_wordXKK 0xF#4 x 0x18#8) (lowByte_wordXKK 0xF#4 x 0x18#8)

theorem addI (x : Reg) : Statement (.addI x) :=
  fixed_nibble1_low (nibble1_wordXKK 0xF#4 x 0x1E#8) (lowByte_wordXKK 0xF#4 x 0x1E#8)

theorem ldF (x : Reg) : Statement (.ldF x) :=
  fixed_nibble1_low (nibble1_wordXKK 0xF#4 x 0x29#8) (lowByte_wordXKK 0xF#4 x 0x29#8)

theorem ldB (x : Reg) : Statement (.ldB x) :=
  fixed_nibble1_low (nibble1_wordXKK 0xF#4 x 0x33#8) (lowByte_wordXKK 0xF#4 x 0x33#8)

theorem ldMemVx (x : Reg) : Statement (.ldMemVx x) :=
  fixed_nibble1_low (nibble1_wordXKK 0xF#4 x 0x55#8) (lowByte_wordXKK 0xF#4 x 0x55#8)

theorem ldVxMem (x : Reg) : Statement (.ldVxMem x) :=
  fixed_nibble1_low (nibble1_wordXKK 0xF#4 x 0x65#8) (lowByte_wordXKK 0xF#4 x 0x65#8)

end Sys2Proof.Laws.RowMatch
end

