-- ==== Sys2Proof/Tests/Slice0.lean ====
section
/-! SUPPORT. Tests of the model: the ill-formed terms the checks refuse, words written out from the opcode map
(spec/30_encoding.md section 4), single Steps of spec/95_test_vectors.md, and a witness of the hypotheses of every
statement. -/

open Sys2Proof Sys2Proof.Machine

namespace Sys2Proof.Tests

/-! ### Small states -/

/-- The state after reset with the word `w` at 0x200. -/
def boot (w : Nat) : State := State.reset.withFetchWord 16 w

/-- Registers set. -/
def regs (rs : List (Reg × Byte)) (s : State) : State := rs.foldl (fun t r => t.setV r.1 r.2) s

/-- Bytes put at an address. -/
def poke (a : Nat) (bytes : List Byte) (s : State) : State := { s with mem := s.mem.writeBytes a bytes }

/-- The call stack with `n` slots in use, each holding `w`. -/
def stacked (n : Fin 17) (w : Word) (s : State) : State := { s with sp := n, stack := Vector.replicate 16 w }

/-- A key held down. -/
def hold (k : Key) (s : State) : State := s.keyDown k

/-- What one Step leaves, seen through `f`. -/
def see {α : Type} (f : State → α) (s : State) : Option α :=
  match step s with
  | .next t => some (f t)
  | .fault _ => none
  | .refused _ => none

/-! ### WellFormed -/

theorem test_wellFormed_refuses_address : (Instr.jp 0x1000#16).wellFormed = false := by decide
theorem test_wellFormed_refuses_height : (Instr.drw 0 0 16).wellFormed = false := by decide
theorem test_wellFormed_accepts : (Instr.jp 0xFFF#16).wellFormed = true ∧ (Instr.drw 0xF 0xF 15).wellFormed = true := by
  decide

/-! ### Decoding: one word per constructor, its nibbles written out from the opcode map -/

theorem test_decode_0 : decodeWord 0b0000_0000_1110_0000#16 = some .cls ∧
    decodeWord 0b0000_0000_1110_1110#16 = some .ret := by decide
theorem test_decode_addresses : decodeWord 0b0001_0010_0011_0100#16 = some (.jp 0x234#16) ∧
    decodeWord 0b0010_1010_1011_1100#16 = some (.call 0xABC#16) ∧
    decodeWord 0b1010_0011_0000_0001#16 = some (.ldI 0x301#16) ∧
    decodeWord 0b1011_1111_1111_1110#16 = some (.jpV0 0xFFE#16) := by decide
theorem test_decode_immediates : decodeWord 0b0011_0011_0100_0010#16 = some (.seImm 0x3 0x42#8) ∧
    decodeWord 0b0100_1110_1000_0001#16 = some (.sneImm 0xE 0x81#8) ∧
    decodeWord 0b0110_1111_1010_1010#16 = some (.ldImm 0xF 0xAA#8) ∧
    decodeWord 0b0111_0001_1111_1110#16 = some (.addImm 0x1 0xFE#8) ∧
    decodeWord 0b1100_0011_0000_1111#16 = some (.rnd 0x3 0x0F#8) := by decide
theorem test_decode_5_9 : decodeWord 0b0101_0001_0010_0101#16 = some (.seReg 0x1 0x2) ∧
    decodeWord 0b1001_0001_0010_0001#16 = some (.sneReg 0x1 0x2) := by decide
theorem test_decode_8_low : decodeWord 0b1000_0001_0010_0000#16 = some (.ldReg 0x1 0x2) ∧
    decodeWord 0b1000_0001_0010_0001#16 = some (.orReg 0x1 0x2) ∧
    decodeWord 0b1000_0001_0010_0010#16 = some (.andReg 0x1 0x2) ∧
    decodeWord 0b1000_0001_0010_0011#16 = some (.xorReg 0x1 0x2) ∧
    decodeWord 0b1000_0001_0010_0100#16 = some (.addReg 0x1 0x2) := by decide
theorem test_decode_8_high : decodeWord 0b1000_0001_0010_0101#16 = some (.sub 0x1 0x2) ∧
    decodeWord 0b1000_0001_0010_0110#16 = some (.shr 0x1 0x2) ∧
    decodeWord 0b1000_0001_0010_0111#16 = some (.subn 0x1 0x2) ∧
    decodeWord 0b1000_0001_0010_1110#16 = some (.shl 0x1 0x2) := by decide
theorem test_decode_D : decodeWord 0b1101_0001_0010_1111#16 = some (.drw 0x1 0x2 15) := by decide
theorem test_decode_E : decodeWord 0b1110_0001_1001_1110#16 = some (.skp 0x1) ∧
    decodeWord 0b1110_0001_1010_0001#16 = some (.sknp 0x1) := by decide
theorem test_decode_F_timers : decodeWord 0b1111_0011_0000_0111#16 = some (.ldVxDt 0x3) ∧
    decodeWord 0b1111_0011_0000_1010#16 = some (.ldVxK 0x3) ∧
    decodeWord 0b1111_0011_0001_0101#16 = some (.ldDtVx 0x3) ∧
    decodeWord 0b1111_0011_0001_1000#16 = some (.ldStVx 0x3) := by decide
theorem test_decode_F_memory : decodeWord 0b1111_0010_0001_1110#16 = some (.addI 0x2) ∧
    decodeWord 0b1111_0100_0010_1001#16 = some (.ldF 0x4) ∧
    decodeWord 0b1111_0101_0011_0011#16 = some (.ldB 0x5) ∧
    decodeWord 0b1111_0010_0101_0101#16 = some (.ldMemVx 0x2) ∧
    decodeWord 0b1111_0010_0110_0101#16 = some (.ldVxMem 0x2) := by decide

/-- The first byte in memory is bits 15:8 (spec/20_memory.md section 2). -/
theorem test_decode_bytes : decodeTableWord 16 0xD12F = some (.drw 0x1 0x2 15) ∧
    decodeTableWord 16 0x0000 = none ∧ decodeTableWord 16 0x0123 = none := by decide
theorem test_decode_rejects : decode [0x00#8] matches .error .truncated := by decide
theorem test_decode_rejects_sentinel : decode [0x00#8, 0x00#8] matches .error .endSentinel := by decide
theorem test_encode_ignored_nibble : encode (.seReg 0x1 0x2) = 0x5120#16 ∧ encode (.sneReg 0x1 0x1) = 0x9110#16 := by
  decide

/-! ### The Step (95_test_vectors section 2.1) -/

theorem test_sentinel : see (fun t => (t.status, t.pc)) State.reset = some (.ended, 0x200#16) := by decide
theorem test_unknown : see (fun t => (t.status, t.fault)) (boot 0x8128) =
    some (.faulted, some ⟨.unknownOpcode, 0x200#16, some 0x8128#16, 0x8128#16⟩) := by decide
theorem test_fetch_at_FFF : see (fun t => t.fault) (State.reset.setPc 0xFFF#16) =
    some (some ⟨.boundsError, 0xFFF#16, none, 0xFFF#16⟩) := by decide
theorem test_fetch_at_FFE : see (fun t => (t.readV 0, t.pc, t.status))
    (poke 0xFFE [0x60, 0x01] (State.reset.setPc 0xFFE#16)) = some (0x01#8, 0x1000#16, .running) := by decide
theorem test_fetch_odd : see (fun t => (t.readV 0, t.pc)) (poke 0x201 [0x60, 0x01] (State.reset.setPc 0x201#16)) =
    some (0x01#8, 0x203#16) := by decide

/-! ### Control flow (section 2.2) -/

theorem test_jp : see (fun t => t.pc) (boot 0x1208) = some 0x208#16 := by decide
theorem test_jp_low : see (fun t => (t.pc, t.fault)) (boot 0x11FF) =
    some (0x200#16, some ⟨.addressError, 0x200#16, some 0x11FF#16, 0x1FF#16⟩) := by decide
theorem test_call : see (fun t => (t.stack[0], t.sp.val, t.pc)) (boot 0x2300) = some (0x200#16, 1, 0x300#16) := by
  decide
theorem test_call_full : see (fun t => (t.fault, t.sp.val)) (stacked 16 0x204#16 (boot 0x2300)) =
    some (some ⟨.stackOverflow, 0x200#16, some 0x2300#16, 0x200#16⟩, 16) := by decide
theorem test_ret : see (fun t => (t.sp.val, t.pc)) (stacked 1 0x204#16 (boot 0x00EE)) = some (0, 0x206#16) := by
  decide
theorem test_ret_empty : see (fun t => (t.pc, t.fault)) (boot 0x00EE) =
    some (0x200#16, some ⟨.stackUnderflow, 0x200#16, some 0x00EE#16, 0x200#16⟩) := by decide
theorem test_seImm : see (fun t => t.pc) (regs [(3, 0x42)] (boot 0x3342)) = some 0x204#16 := by decide
theorem test_seImm_not : see (fun t => t.pc) (regs [(3, 0x41)] (boot 0x3342)) = some 0x202#16 := by decide
theorem test_sneImm : see (fun t => t.pc) (regs [(3, 0x41)] (boot 0x4342)) = some 0x204#16 := by decide
theorem test_sneImm_not : see (fun t => t.pc) (regs [(3, 0x42)] (boot 0x4342)) = some 0x202#16 := by decide
theorem test_seReg : see (fun t => t.pc) (regs [(1, 7), (2, 7)] (boot 0x5125)) = some 0x204#16 := by decide
theorem test_sneReg : see (fun t => t.pc) (regs [(1, 7), (2, 8)] (boot 0x9120)) = some 0x204#16 := by decide
theorem test_sneReg_self : see (fun t => t.pc) (regs [(1, 7)] (boot 0x9110)) = some 0x202#16 := by decide
theorem test_jpV0 : see (fun t => t.pc) (regs [(0, 0xFF)] (boot 0xBE00)) = some 0xEFF#16 := by decide
theorem test_jpV0_high : see (fun t => (t.pc, t.fault)) (regs [(0, 0x01)] (boot 0xBFFF)) =
    some (0x200#16, some ⟨.addressError, 0x200#16, some 0xBFFF#16, 0x1000#16⟩) := by decide

/-! ### ALU (section 2.3) -/

theorem test_ldImm : see (fun t => (t.readV 0xF, t.pc)) (boot 0x6FAA) = some (0xAA#8, 0x202#16) := by decide
theorem test_addImm : see (fun t => (t.readV 0, t.readV 0xF)) (regs [(0, 0xFE), (0xF, 0x42)] (boot 0x7005)) =
    some (0x03#8, 0x42#8) := by decide
theorem test_addImm_vf : see (fun t => t.readV 0xF) (regs [(0xF, 0x02)] (boot 0x7FFF)) = some 0x01#8 := by decide
theorem test_ldReg : see (fun t => t.readV 1) (regs [(2, 0x7A)] (boot 0x8120)) = some 0x7A#8 := by decide
theorem test_orReg : see (fun t => (t.readV 1, t.readV 0xF)) (regs [(1, 0xF0), (2, 0x0F), (0xF, 0x77)] (boot 0x8121)) =
    some (0xFF#8, 0x77#8) := by decide
theorem test_andReg : see (fun t => t.readV 1) (regs [(1, 0xF0), (2, 0x3C)] (boot 0x8122)) = some 0x30#8 := by decide
theorem test_xorReg : see (fun t => t.readV 1) (regs [(1, 0xF0), (2, 0x3C)] (boot 0x8123)) = some 0xCC#8 := by decide
theorem test_addReg : see (fun t => (t.readV 1, t.readV 0xF)) (regs [(1, 0xF0), (2, 0x20)] (boot 0x8124)) =
    some (0x10#8, 1#8) := by decide
theorem test_addReg_vf : see (fun t => t.readV 0xF) (regs [(0xF, 0xF0), (1, 0x20)] (boot 0x8F14)) = some 0x10#8 := by
  decide
theorem test_sub : see (fun t => (t.readV 1, t.readV 0xF)) (regs [(1, 0x33), (2, 0x33)] (boot 0x8125)) =
    some (0x00#8, 1#8) := by decide
theorem test_sub_borrow : see (fun t => (t.readV 1, t.readV 0xF)) (regs [(1, 0x00), (2, 0x01)] (boot 0x8125)) =
    some (0xFF#8, 0#8) := by decide
theorem test_subn : see (fun t => (t.readV 1, t.readV 0xF)) (regs [(1, 0x20), (2, 0x10)] (boot 0x8127)) =
    some (0xF0#8, 0#8) := by decide
theorem test_subn_vf : see (fun t => t.readV 0xF) (regs [(0xF, 0x05), (1, 0x10)] (boot 0x8F17)) = some 0x0B#8 := by
  decide
theorem test_shr : see (fun t => (t.readV 1, t.readV 0xF)) (regs [(1, 0x05)] (boot 0x8106)) = some (0x02#8, 1#8) := by
  decide
theorem test_shr_ignores_vy : see (fun t => (t.readV 1, t.readV 0xF)) (regs [(1, 0x04), (0xF, 0xFF)] (boot 0x81F6)) =
    some (0x02#8, 0#8) := by decide
theorem test_shl : see (fun t => (t.readV 1, t.readV 0xF)) (regs [(1, 0x81)] (boot 0x810E)) = some (0x02#8, 1#8) := by
  decide
theorem test_shl_vf : see (fun t => t.readV 0xF) (regs [(0xF, 0xC1)] (boot 0x8F0E)) = some 0x82#8 := by decide

/-- With the immediate 0 the result is 0 whatever the draw is; the draw itself is free. -/
theorem test_rnd_masked : ∃ t, step (regs [(3, 0x55)] (boot 0xC300)) = .next t ∧ t.readV 3 = 0x00#8 ∧
    t.pc = 0x202#16 ∧ t.drawCount = 1 := by
  refine ⟨_, rfl, ?_, rfl, rfl⟩
  show Config.randomDraw 0 &&& 0x00#8 = 0x00#8
  exact BitVec.and_zero

/-! ### Index register and memory (section 2.4) -/

theorem test_ldI : see (fun t => t.i) (boot 0xA300) = some 0x300#16 := by decide
theorem test_addI : see (fun t => (t.i, t.readV 0xF)) (regs [(2, 0x02)] ((boot 0xF21E).setI 0xFFF#16)) =
    some (0x1001#16, 0x00#8) := by decide
theorem test_addI_wraps : see (fun t => t.i) (regs [(1, 0x01)] ((boot 0xF11E).setI 0xFFFF#16)) = some 0x0000#16 := by
  decide
theorem test_ldF : see (fun t => t.i) (regs [(4, 0x0A)] (boot 0xF429)) = some 0x32#16 := by decide
theorem test_ldF_unmasked : see (fun t => t.i) (regs [(4, 0xFF)] (boot 0xF429)) = some 0x4FB#16 := by decide
theorem test_ldB : see (fun t => (t.mem.readBytes 0x300 3, t.i)) (regs [(5, 254)] ((boot 0xF533).setI 0x300#16)) =
    some ([0x02#8, 0x05#8, 0x04#8], 0x300#16) := by decide
theorem test_ldB_bounds : see (fun t => (t.mem, t.fault)) (regs [(5, 254)] ((boot 0xF533).setI 0xFFE#16)) =
    some ((boot 0xF533).mem, some ⟨.boundsError, 0x200#16, some 0xF533#16, 0xFFE#16⟩) := by decide
theorem test_ldMemVx : see (fun t => (t.mem.read 0xFF0, t.mem.read 0xFFF, t.i))
    (regs [(0, 1), (0xF, 0x0F)] ((boot 0xFF55).setI 0xFF0#16)) = some (0x01#8, 0x0F#8, 0x1000#16) := by decide
theorem test_ldMemVx_bounds : see (fun t => (t.mem, t.i, t.fault)) ((boot 0xFF55).setI 0xFF1#16) =
    some ((boot 0xFF55).mem, 0xFF1#16, some ⟨.boundsError, 0x200#16, some 0xFF55#16, 0xFF1#16⟩) := by decide
theorem test_ldVxMem : see (fun t => (t.readV 0, t.readV 1, t.readV 2, t.i))
    (poke 0x300 [0x11, 0x22, 0x33] ((boot 0xF265).setI 0x300#16)) = some (0x11#8, 0x22#8, 0x33#8, 0x303#16) := by
  decide
theorem test_ldVxMem_bounds : see (fun t => t.fault) ((boot 0xF065).setI 0x1000#16) =
    some (some ⟨.boundsError, 0x200#16, some 0xF065#16, 0x1000#16⟩) := by decide

/-! ### Display (section 2.5) -/

/-- A screen with one cell set. -/
def lit (x y : Nat) (s : State) : State := s.setScreen (s.fb.toggle x y) s.drawFlag

theorem test_cls : see (fun t => (t.fb.cell 5 5, t.drawFlag)) (lit 5 5 (boot 0x00E0)) = some (false, true) := by decide
theorem test_drw_wraps : see (fun t => (t.fb.cell 63 31, t.fb.cell 0 31, t.readV 0xF, t.drawFlag))
    (regs [(1, 63), (2, 31)] (poke 0x300 [0xC0] ((boot 0xD121).setI 0x300#16))) =
    some (true, true, 0#8, true) := by decide
theorem test_drw_collides : see (fun t => (t.fb.cell 0 0, t.fb.cell 7 0, t.readV 0xF))
    (lit 0 0 (poke 0x300 [0x81] ((boot 0xD111).setI 0x300#16))) = some (false, true, 1#8) := by decide

/-! ### Keys and timers (section 2.6) -/

theorem test_skp : see (fun t => t.pc) (hold 5 (regs [(1, 5)] (boot 0xE19E))) = some 0x204#16 := by decide
theorem test_skp_bounds : see (fun t => (t.pc, t.fault)) (regs [(1, 0x10)] (boot 0xE19E)) =
    some (0x200#16, some ⟨.boundsError, 0x200#16, some 0xE19E#16, 0x10#16⟩) := by decide
theorem test_sknp : see (fun t => t.pc) (regs [(1, 5)] (boot 0xE1A1)) = some 0x204#16 := by decide
theorem test_sknp_held : see (fun t => t.pc) (hold 5 (regs [(1, 5)] (boot 0xE1A1))) = some 0x202#16 := by decide
theorem test_ldVxK_waits : see (fun t => (t.pc, t.readV 3)) (regs [(3, 0x77)] (boot 0xF30A)) =
    some (0x200#16, 0x77#8) := by decide
theorem test_ldVxK_least : see (fun t => (t.pc, t.readV 3)) (hold 4 (hold 0xC (boot 0xF30A))) =
    some (0x202#16, 0x04#8) := by decide
theorem test_ldVxDt : see (fun t => t.readV 3) ((boot 0xF307).setDt 0x3C#8) = some 0x3C#8 := by decide
theorem test_ldDtVx : see (fun t => (t.dt, t.st)) (regs [(3, 0x3C)] (boot 0xF315)) = some (0x3C#8, 0x00#8) := by decide
theorem test_ldStVx : see (fun t => (t.dt, t.st)) (regs [(3, 0x02)] (boot 0xF318)) = some (0x00#8, 0x02#8) := by decide
theorem test_tick : ((State.reset.setDt 2#8).tick.dt, (State.reset.setDt 2#8).tick.st) = (1#8, 0#8) := by decide
theorem test_tick_faulted :
    ({ State.reset with dt := 2#8, status := .faulted } : State).tick.dt = 1#8 := by decide
theorem test_keys : (State.reset.keyDown 3).keyPressed 3 = true ∧ ((State.reset.keyDown 3).keyUp 3).keyPressed 3 = false := by
  decide
theorem test_image_too_large : (State.reset.loadImage (List.replicate 0xE01 0x60#8)).1 = .tooLarge := by
  unfold State.loadImage
  rw [List.length_replicate]
  rfl

/-! ### The font (spec/20_memory.md section 5) -/

theorem test_font : State.reset.mem.readBytes 0x23 5 = [0xF0#8, 0x10#8, 0x20#8, 0x40#8, 0x40#8] ∧
    State.reset.mem.read 0x4F = 0x80#8 ∧ State.reset.mem.read 0x50 = 0x00#8 := by decide

/-! ### Witnesses: for every statement with hypotheses, a state and operands that meet them together, at the
boundary values of each clause -/

/-- The word at PC is that of `i`. -/
def FetchesAt (s : State) (w : Word) (i : Instr) : Prop := s.fetchWord = some w ∧ decodeWord w = some i

theorem fetches {s : State} {w : Word} {i : Instr} (h : FetchesAt s w i) : s.Fetches i := ⟨w, h⟩

/-- A state of a run: a CALL's return address in use, a byte stored at 0x300, PC at 0x300. -/
def midRun : State := poke 0x300 [0x6F, 0x01] (stacked 1 0x200#16 (State.reset.setPc 0x300#16))

theorem test_inv_midRun : midRun.Inv where
  memWf := by decide
  pcBound := by decide
  slots := by decide
  faultIff := by decide
  faultPc := by intro f h; cases h

theorem test_witness_DecodeInvertsEncode : (Instr.jp 0xFFF#16).wellFormed = true ∧
    (Instr.jp 0x000#16).wellFormed = true ∧ (Instr.drw 0xF 0xF 15).wellFormed = true ∧
    (Instr.drw 0 0 0).wellFormed = true := by decide
theorem test_witness_DecodedInstructionsAreWellFormed :
    decodeWord 0x1FFF#16 = some (.jp 0xFFF#16) ∧ decodeWord 0xDFFF#16 = some (.drw 0xF 0xF 15) := by decide
theorem test_witness_EncodeInvertsDecode :
    (decodeWord 0x512F#16 = some (.seReg 1 2) ∧ nibble1 0x512F#16 = 0x5#4) ∧
    (decodeWord 0x9FFF#16 = some (.sneReg 0xF 0xF) ∧ nibble1 0x9FFF#16 = 0x9#4) ∧
    (decodeWord 0xFF65#16 = some (.ldVxMem 0xF) ∧ nibble1 0xFF65#16 ≠ 0x5#4 ∧ nibble1 0xFF65#16 ≠ 0x9#4) := by decide
theorem test_witness_HighNibbleFamiliesIgnoreTheRest : nibble1 0xDFFF#16 = nibble1 0xD000#16 ∧
    nibble1 0xDFFF#16 ≠ 0x0#4 ∧ nibble1 0xDFFF#16 ≠ 0x8#4 ∧ nibble1 0xDFFF#16 ≠ 0xE#4 ∧
    nibble1 0xDFFF#16 ≠ 0xF#4 := by decide
theorem test_witness_IllegalWordsAreExactlyThese : decodeWord 0x0FFF#16 = none ∧ decodeWord 0x1000#16 ≠ none ∧
    decodeWord 0x800F#16 = none ∧ decodeWord 0x800E#16 ≠ none ∧ decodeWord 0xE09D#16 = none ∧
    decodeWord 0xE09E#16 ≠ none ∧ decodeWord 0xFFFF#16 = none ∧ decodeWord 0xFF65#16 ≠ none := by decide
theorem test_witness_StepRunsTheDecodedInstruction :
    (midRun.status = .running ∧ midRun.pc.toNat ≤ 0xFFE ∧
      decode [midRun.mem.read midRun.pc.toNat, midRun.mem.read (midRun.pc.toNat + 1)] = .ok (.ldImm 0xF 0x01, [])) ∧
    (State.reset.setPc 0xFFE#16).pc.toNat ≤ 0xFFE := ⟨⟨rfl, by decide, rfl⟩, by decide⟩
theorem test_witness_HandlerLookupOrUnknownOpcode :
    ((boot 0x6005).status = .running ∧ (boot 0x6005).pc.toNat ≤ 0xFFE ∧
      (0x6005#16).toNat = ((boot 0x6005).mem.read 0x200).toNat * 0x100 + ((boot 0x6005).mem.read 0x201).toNat ∧
      decodeWord 0x6005#16 = some (.ldImm 0 0x05)) ∧
    ((boot 0x0123).status = .running ∧ (boot 0x0123).pc.toNat ≤ 0xFFE ∧
      (0x0123#16).toNat = ((boot 0x0123).mem.read 0x200).toNat * 0x100 + ((boot 0x0123).mem.read 0x201).toNat ∧
      decodeWord 0x0123#16 = none) := by decide
theorem test_witness_FetchBeyondMemoryRaisesBoundsError :
    (State.reset.setPc 0xFFF#16).status = .running ∧ (State.reset.setPc 0xFFF#16).pc.toNat > 0xFFE ∧
    (State.reset.setPc 0xFFFF#16).pc.toNat > 0xFFE := by decide
theorem test_witness_ZeroWordEndsTheRun : State.reset.status = .running ∧ State.reset.pc.toNat ≤ 0xFFE ∧
    State.reset.mem.read State.reset.pc.toNat = 0#8 ∧ State.reset.mem.read (State.reset.pc.toNat + 1) = 0#8 := by decide
theorem test_witness_TerminalStatesStay : State.reset.endRun.runOver ∧
    (State.reset.raise .boundsError none 0x200#16).runOver := ⟨.inl rfl, .inr rfl⟩
theorem test_witness_StatusMovesOnlyAsListed :
    (∃ t, State.reset.status = .running ∧ step State.reset = .next t ∧ State.reset.fetchWord = some 0x0000#16) ∧
    (∃ t, (boot 0x6005).status = .running ∧ step (boot 0x6005) = .next t ∧ (boot 0x6005).fetchWord ≠ some 0x0000#16) ∧
    (∃ t, transact (.keyDown 3) State.reset = .next t) :=
  ⟨⟨_, rfl, rfl, by decide⟩, ⟨_, rfl, rfl, by decide⟩, ⟨_, rfl⟩⟩
theorem test_witness_RuntimeErrorsArePrecise :
    (∃ t, (boot 0x00EE).status = .running ∧ step (boot 0x00EE) = .next t ∧ t.status = .faulted) ∧
    (∃ t, step (State.reset.setPc 0xFFF#16) = .next t ∧ t.status = .faulted) :=
  ⟨⟨_, rfl, rfl, rfl⟩, ⟨_, rfl, rfl⟩⟩

/-- A Step of `s` raises the error `k`. -/
def raises (s : State) (k : FaultKind) : Bool :=
  s.status == .running && see (fun t => (t.status, t.fault.map (fun f => f.kind))) s == some (.faulted, some k)

theorem test_witness_EachFaultKindHasItsCause :
    raises (boot 0x00EE) .stackUnderflow = true ∧ raises (stacked 16 0x200#16 (boot 0x2200)) .stackOverflow = true ∧
    raises (boot 0x11FF) .addressError = true ∧ raises (boot 0x21FF) .addressError = true ∧
    raises (regs [(0, 0x0F)] (boot 0xB1F0)) .addressError = true ∧
    raises (regs [(0, 0x01)] (boot 0xBFFF)) .addressError = true ∧ raises (boot 0x0123) .unknownOpcode = true ∧
    raises (State.reset.setPc 0xFFF#16) .boundsError = true := by decide
theorem test_witness_EachFaultKindHasItsCause_bounds :
    raises ((boot 0xD122).setI 0xFFF#16) .boundsError = true ∧
    raises ((boot 0xF033).setI 0xFFE#16) .boundsError = true ∧
    raises ((boot 0xFF55).setI 0xFF1#16) .boundsError = true ∧
    raises ((boot 0xF065).setI 0x1000#16) .boundsError = true ∧
    raises (regs [(1, 0x10)] (boot 0xE19E)) .boundsError = true ∧
    raises (regs [(1, 0xFF)] (boot 0xE1A1)) .boundsError = true := by decide

/-- A Step of `s` fetches the word `w` and completes. -/
def runs (s : State) (w : Word) : Bool :=
  s.status == .running && s.fetchWord == some w && see (fun t => t.status) s == some .running

theorem test_witness_PcAfterACompletedStep :
    runs (boot 0x1FFF) 0x1FFF#16 = true ∧ runs (stacked 15 0x200#16 (boot 0x2200)) 0x2200#16 = true ∧
    runs (regs [(0, 0xFF)] (boot 0xBF00)) 0xBF00#16 = true ∧ runs (stacked 16 0x204#16 (boot 0x00EE)) 0x00EE#16 = true ∧
    runs (boot 0x3000) 0x3000#16 = true ∧ runs (boot 0xE09E) 0xE09E#16 = true ∧
    runs (boot 0xF00A) 0xF00A#16 = true ∧ runs (hold 0xF (boot 0xF00A)) 0xF00A#16 = true ∧
    runs (boot 0x6005) 0x6005#16 = true := by decide
theorem test_witness_ResetLeavesTheStatedState : ∃ t : State, t = State.reset.applyReset := ⟨_, rfl⟩
theorem test_witness_StepKeepsTheInvariant : midRun.Inv ∧ ∃ t, step midRun = .next t := ⟨test_inv_midRun, _, rfl⟩
theorem test_witness_TransactionsKeepTheInvariant : midRun.Inv ∧ ∃ t, transact (.loadImage [0x60, 0x05]) midRun = .next t :=
  ⟨test_inv_midRun, _, rfl⟩
/-- The clauses of AddSetsCarry, SubtractSetsNotBorrow and ShiftsMoveOneBitOut for VF: registers other than VF. -/
theorem test_witness_flag_clauses : (0x0 : Reg) ≠ vf ∧ (0xE : Reg) ≠ vf := by decide
theorem test_witness_RandomMasksAFreeDraw : (0x7F#8).getLsbD 7 = false ∧ (0xFE#8).getLsbD 0 = false := by decide
theorem test_witness_JumpSetsPcOrRaisesAddressError :
    (0x200 ≤ (0x200#16).toNat ∧ (0x200#16).toNat ≤ 0xFFF) ∧ (0x200 ≤ (0xFFF#16).toNat ∧ (0xFFF#16).toNat ≤ 0xFFF) ∧
    ((0x1FF#16).toNat < 0x200 ∨ 0xFFF < (0x1FF#16).toNat) ∧
    ((0x1000#16).toNat < 0x200 ∨ 0xFFF < (0x1000#16).toNat) := by decide
theorem test_witness_CallPushesItsOwnAddress :
    ((15 : Fin 16).val = (stacked 15 0x200#16 State.reset).sp.val ∧ 0x200 ≤ (0xFFF#16).toNat ∧ (0xFFF#16).toNat ≤ 0xFFF) ∧
    ((0 : Fin 16).val = State.reset.sp.val ∧ 0x200 ≤ (0x200#16).toNat ∧ (0x200#16).toNat ≤ 0xFFF) ∧
    (0x1FF#16).toNat < 0x200 ∧ 0xFFF < (0x1000#16).toNat ∧
    (0x200 ≤ (0x200#16).toNat ∧ (0x200#16).toNat ≤ 0xFFF ∧ (stacked 16 0x200#16 State.reset).sp.val = 16) := by decide
theorem test_witness_ReturnPopsAndAdvances : (0 : Fin 16).val + 1 = (stacked 1 0x204#16 State.reset).sp.val ∧
    (15 : Fin 16).val + 1 = (stacked 16 0x204#16 State.reset).sp.val ∧ State.reset.sp.val = 0 := by decide
theorem test_witness_JumpOffsetChecksTheExactSum :
    ((0x1FF#16).toNat ≤ 0xFFF ∧ 0x200 ≤ ((regs [(0, 1)] State.reset).readV 0).toNat + (0x1FF#16).toNat ∧
      ((regs [(0, 1)] State.reset).readV 0).toNat + (0x1FF#16).toNat ≤ 0xFFF) ∧
    (0x200 ≤ (State.reset.readV 0).toNat + (0xFFF#16).toNat ∧ (State.reset.readV 0).toNat + (0xFFF#16).toNat ≤ 0xFFF) ∧
    (State.reset.readV 0).toNat + (0x1FF#16).toNat < 0x200 ∧
    0xFFF < ((regs [(0, 1)] State.reset).readV 0).toNat + (0xFFF#16).toNat := by decide
theorem test_witness_CallThenReturnResumesAfterTheCall : 0x200 ≤ (0x300#16).toNat ∧ (0x300#16).toNat ≤ 0xFFF ∧
    (stacked 15 0x204#16 State.reset).sp.val < 16 ∧
    ∃ t u : State, exec (.call 0x300#16) (stacked 15 0x204#16 State.reset) = .next t ∧ u.stack = t.stack ∧ u.sp = t.sp :=
  ⟨by decide, by decide, by decide, _, _, rfl, rfl, rfl⟩
theorem test_witness_IndexRegisterWrites : (0xFFF#16).toNat ≤ 0xFFF ∧ (0x000#16).toNat ≤ 0xFFF := by decide
theorem test_witness_BcdStoresThreeDigits : indexAddr (State.reset.setI 0xFFD#16) + 2 ≤ 0xFFF ∧
    0xFFF < indexAddr (State.reset.setI 0xFFE#16) + 2 := by decide
theorem test_witness_BlockTransfers : indexAddr (State.reset.setI 0xFF0#16) + (0xF : Reg).val ≤ 0xFFF ∧
    0xFFF < indexAddr (State.reset.setI 0xFF1#16) + (0xF : Reg).val ∧
    indexAddr (State.reset.setI 0xFFF#16) + (0x0 : Reg).val ≤ 0xFFF ∧
    0xFFF < indexAddr (State.reset.setI 0x1000#16) + (0x0 : Reg).val := by decide
theorem test_witness_DumpThenLoadRestoresTheRegisters :
    indexAddr (State.reset.setI 0xFF0#16) + (0xF : Reg).val ≤ 0xFFF ∧
    ∃ t u : State, exec (.ldMemVx 0xF) (State.reset.setI 0xFF0#16) = .next t ∧ u.mem = t.mem ∧ u.i = 0xFF0#16 :=
  ⟨by decide, _, { State.reset with mem := _, i := _ }, rfl, rfl, rfl⟩
theorem test_witness_StoredBytesAreFetchedAsCode :
    (∃ t, exec (.ldMemVx 1) (State.reset.setI 0xFFE#16) = .next t ∧
      indexAddr (State.reset.setI 0xFFE#16) + (1 : Reg).val ≤ 0xFFF ∧ (1 : Reg).val = (0 : Reg).val + 1 ∧
      (1 : Reg).val ≤ (1 : Reg).val) ∧
    (∃ t, exec (.ldB 5) (State.reset.setI 0xFFD#16) = .next t ∧ indexAddr (State.reset.setI 0xFFD#16) + 2 ≤ 0xFFF) :=
  ⟨⟨_, rfl, by decide⟩, ⟨_, rfl, by decide⟩⟩
theorem test_witness_DrawXorsTheSprite :
    (15 ≤ 15 ∧ (0 < 15 → indexAddr (State.reset.setI 0xFF1#16) + 15 - 1 ≤ 0xFFF)) ∧
    (0 ≤ 15 ∧ (0 < 0 → indexAddr (State.reset.setI 0xFFFF#16) + 0 - 1 ≤ 0xFFF)) ∧
    (0 < 15 ∧ 0xFFF < indexAddr (State.reset.setI 0xFF2#16) + 15 - 1) := by decide
theorem test_witness_DrawXorsTheSprite_covers :
    SpriteCovers (regs [(1, 63), (2, 31)] (poke 0x300 [0xC0] (State.reset.setI 0x300#16))) 1 2 1 0 31 :=
  ⟨0, 1, by decide⟩
theorem test_witness_DrawingTwiceRestoresTheScreen :
    ∃ s t u : State, 1 ≤ 15 ∧ (0 < 1 → indexAddr s + 1 - 1 ≤ 0xFFF) ∧ exec (.drw 0 0 1) s = .next t ∧ u.fb = t.fb ∧
      u.mem = s.mem ∧ u.i = s.i ∧ u.readV 0 = s.readV 0 :=
  ⟨State.reset, _, _, by decide, by decide, rfl, rfl, rfl, rfl, by decide⟩
theorem test_witness_KeySkips : ((regs [(1, 0xF)] State.reset).readV 1).toNat = (0xF : Key).val ∧
    (State.reset.readV 1).toNat = (0x0 : Key).val ∧ 0xF < ((regs [(1, 0x10)] State.reset).readV 1).toNat := by decide
theorem test_witness_KeyWaitTakesTheLeastKey : (∀ k : Key, State.reset.keyPressed k = false) ∧
    ((hold 0xF State.reset).keyPressed 0xF = true ∧ ∀ j : Key, j.val < 0xF → (hold 0xF State.reset).keyPressed j = false) ∧
    ((hold 0xF (hold 0x0 State.reset)).keyPressed 0x0 = true ∧
      ∀ j : Key, j.val < 0x0 → (hold 0xF (hold 0x0 State.reset)).keyPressed j = false) := by decide
theorem test_witness_OnlyCallAndRetTouchTheStack :
    (∃ t, step (boot 0x2300) = .next t ∧ t.sp ≠ (boot 0x2300).sp) ∧
    (∃ t, step (stacked 1 0x204#16 (boot 0x00EE)) = .next t ∧ t.sp ≠ (stacked 1 0x204#16 (boot 0x00EE)).sp) :=
  ⟨⟨_, rfl, by decide⟩, ⟨_, rfl, by decide⟩⟩
theorem test_witness_OnlyClsAndDrwTouchTheScreen : ∃ t, step (boot 0x00E0) = .next t ∧
    t.drawFlag ≠ (boot 0x00E0).drawFlag := ⟨_, rfl, by decide⟩
theorem test_witness_VfIsWrittenOnlyAsFlagOrDestination :
    (∃ t, step (boot 0x6FAA) = .next t ∧ t.readV vf ≠ (boot 0x6FAA).readV vf) ∧
    (∃ t, step (boot 0x8125) = .next t ∧ t.readV vf ≠ (boot 0x8125).readV vf) :=
  ⟨⟨_, rfl, by decide⟩, ⟨_, rfl, by decide⟩⟩
theorem test_witness_OnlyStoresWriteMemory :
    (∃ t, step (regs [(0, 9)] ((boot 0xF033).setI 0xFFD#16)) = .next t ∧ t.mem.read 0xFFF ≠ (boot 0xF033).mem.read 0xFFF) ∧
    (∃ t, step (regs [(0, 9)] ((boot 0xF055).setI 0xFFF#16)) = .next t ∧ t.mem.read 0xFFF ≠ (boot 0xF055).mem.read 0xFFF) :=
  ⟨⟨_, rfl, by decide⟩, ⟨_, rfl, by decide⟩⟩
theorem test_witness_OnlyTimerLoadsWriteTheTimers :
    (∃ t, step (regs [(3, 1)] (boot 0xF315)) = .next t ∧ t.dt ≠ (boot 0xF315).dt) ∧
    (∃ t, step (regs [(3, 1)] (boot 0xF318)) = .next t ∧ t.st ≠ (boot 0xF318).st) :=
  ⟨⟨_, rfl, by decide⟩, ⟨_, rfl, by decide⟩⟩
theorem test_witness_KeysAreWrittenByTheHostAlone : (hold 0xF State.reset).keyPressed 0xF = true ∧
    State.reset.keyPressed 0xF = false ∧ ∃ t, step (boot 0x6005) = .next t ∧ transact .tick State.reset = .next State.reset :=
  ⟨by decide, by decide, _, rfl, rfl⟩
theorem test_witness_LoadImageWritesTheImageOrNothing : (List.replicate 0xE00 0x60#8).length ≤ 0xE00 ∧
    ([] : List Byte).length ≤ 0xE00 ∧ 0xE00 < (List.replicate 0xE01 0x60#8).length := by
  simp only [List.length_replicate, List.length_nil]
  decide
theorem test_witness_BootRunsTheFirstWordOfTheImage : (0x60#8 :: 0x05#8 :: List.replicate 0xDFE 0x00#8).length ≤ 0xE00 ∧
    decode [0x60#8, 0x05#8] = .ok (.ldImm 0 0x05#8, []) := by
  simp only [List.length_cons, List.length_replicate]
  exact ⟨by decide, rfl⟩
/-- A state that has taken the error `k`. -/
def faultedBy (k : FaultKind) : State := State.reset.raise k none 0x200#16

theorem test_witness_HostPortsShowTheState : midRun.Inv ∧ midRun.fault = none ∧ midRun.status = .running ∧
    midRun.endRun.status = .ended ∧
    ∀ k : FaultKind, (faultedBy k).status = .faulted ∧ ∃ f, (faultedBy k).fault = some f ∧ f.kind = k :=
  ⟨test_inv_midRun, rfl, rfl, rfl, fun _ => ⟨rfl, _, rfl, rfl⟩⟩
theorem test_witness_PlacedInstructionRunsFirst : (Instr.ldI 0xFFF#16).wellFormed = true := by decide

end Sys2Proof.Tests
end

section
/-! PROOFS. The families that the high nibble alone picks (spec/30_encoding.md R44, R45). -/

namespace Sys2Proof

/-- A word of format XYN, written as the opcode map writes it: the operation's nibble and the operands at their
weights. -/
theorem ofNat_eq_wordXYN (op : BitVec 4) (x y : Reg) (n : BitVec 4) :
    BitVec.ofNat 16 (op.toNat * 0x1000 + 0x100 * x.val + 0x10 * y.val + n.toNat) = wordXYN op x y n := by
  apply BitVec.eq_of_toNat_eq
  have := (wordXYN op x y n).isLt
  rw [wordXYN_toNat] at this ⊢
  rw [BitVec.toNat_ofNat]
  omega

theorem decodeWord_of_nibble1_eq_5 {w : Word} (h : nibble1 w = 0x5#4) :
    decodeWord w = some (.seReg (fieldX w) (fieldY w)) := by
  simp [decodeWord, h]

theorem decodeWord_of_nibble1_eq_9 {w : Word} (h : nibble1 w = 0x9#4) :
    decodeWord w = some (.sneReg (fieldX w) (fieldY w)) := by
  simp [decodeWord, h]

theorem decodeWord_wordXYN_5 (x y : Reg) (n : BitVec 4) : decodeWord (wordXYN 0x5#4 x y n) = some (.seReg x y) := by
  simp [decodeWord_of_nibble1_eq_5]

theorem decodeWord_wordXYN_9 (x y : Reg) (n : BitVec 4) : decodeWord (wordXYN 0x9#4 x y n) = some (.sneReg x y) := by
  simp [decodeWord_of_nibble1_eq_9]

/-- Outside the 0, 8, E and F families a word decodes, and the row it decodes to has one fixed field: the high nibble.
So the row is a function of that nibble alone. -/
theorem decodeWord_map_opcodeRow {w : Word} (h0 : nibble1 w ≠ 0x0#4) (h8 : nibble1 w ≠ 0x8#4)
    (hE : nibble1 w ≠ 0xE#4) (hF : nibble1 w ≠ 0xF#4) :
    (decodeWord w).map opcodeRow = some [(15, 12, (nibble1 w).toNat)] := by
  have hlt := (nibble1 w).isLt
  rw [Ne, BitVec.toNat_eq] at h0 h8 hE hF
  unfold decodeWord
  split
  -- the four families excluded by hypothesis, then the values above 0xF, then the twelve high-nibble families
  case h_1 | h_9 | h_15 | h_16 => contradiction
  case h_17 =>
    simp only [imp_false] at *
    omega
  all_goals next hop => simp [opcodeRow, hop]

/-- Settles O5: the row of a word in these families is read off its high nibble (`decodeWord_map_opcodeRow`), and
5xyn and 9xyn are words of format XYN whose nibble 4 no field of the instruction reads. -/
theorem highNibbleFamiliesIgnoreTheRest : Obligations.HighNibbleFamiliesIgnoreTheRest := by
  unfold Obligations.HighNibbleFamiliesIgnoreTheRest
  refine ⟨fun w u hwu h0 h8 hE hF => ?_, fun x y n => ⟨?_, ?_⟩⟩
  · have hw := decodeWord_map_opcodeRow h0 h8 hE hF
    have hu := decodeWord_map_opcodeRow (w := u) (hwu ▸ h0) (hwu ▸ h8) (hwu ▸ hE) (hwu ▸ hF)
    refine ⟨fun hnone => ?_, by rw [hw, hu, hwu]⟩
    rw [hnone] at hw
    cases hw
  · exact (congrArg decodeWord (ofNat_eq_wordXYN 0x5#4 x y (.ofFin n))).trans (decodeWord_wordXYN_5 x y (.ofFin n))
  · exact (congrArg decodeWord (ofNat_eq_wordXYN 0x9#4 x y (.ofFin n))).trans (decodeWord_wordXYN_9 x y (.ofFin n))

end Sys2Proof
end


section
/-! PROOFS. The compare skips (spec/41_control_flow.md R62 to R65): how their words decode and what their handlers do
to PC. -/

namespace Sys2Proof

/-- A word of format XKK, written as the opcode map writes it: the operation's nibble and the operands at their
weights. -/
theorem ofNat_eq_wordXKK (op : BitVec 4) (x : Reg) (kk : Byte) :
    BitVec.ofNat 16 (op.toNat * 0x1000 + 0x100 * x.val + kk.toNat) = wordXKK op x kk := by
  apply BitVec.eq_of_toNat_eq
  have := (wordXKK op x kk).isLt
  rw [wordXKK_toNat] at this ⊢
  rw [BitVec.toNat_ofNat]
  omega

theorem decodeWord_wordXKK_3 (x : Reg) (kk : Byte) : decodeWord (wordXKK 0x3#4 x kk) = some (.seImm x kk) := by
  simp [decodeWord, fieldKK]

theorem decodeWord_wordXKK_4 (x : Reg) (kk : Byte) : decodeWord (wordXKK 0x4#4 x kk) = some (.sneImm x kk) := by
  simp [decodeWord, fieldKK]

namespace Machine

/-- What the executor adds to PC after a compare: one word more where the condition holds (R54, R55). -/
@[simp] theorem advanceBy_skipIf (c : Bool) : advanceBy (skipIf c) = if c then 4#16 else 2#16 := by
  cases c <;> rfl

/-- The PC update changes PC alone. -/
theorem advance_onlyChanges (s : State) (a : Advance) : OnlyChanges [.pc] s (s.advance a) := by
  intro p hp
  cases p
  case pc => exact absurd (List.mem_singleton_self Part.pc) hp
  all_goals rfl

/-- A handler that only picks between SKIP and NEXT completes and changes PC alone; `p` is the condition as a
proposition. -/
theorem completes_skipIf (s : State) {c : Bool} {p : Prop} [Decidable p] (hc : c = true ↔ p) :
    Completes (complete (skipIf c) s) fun t =>
      t.pc = (if p then s.pc + 4#16 else s.pc + 2#16) ∧ OnlyChanges [.pc] s t := by
  refine ⟨s.advance (skipIf c), complete_eq .., ?_, advance_onlyChanges s _⟩
  simp only [advance_pc, advanceBy_skipIf, hc, apply_ite (s.pc + ·)]

/-- R62 and R64: the handlers that skip where two bytes are equal. -/
theorem completes_skipIf_beq (s : State) (a b : Byte) :
    Completes (complete (skipIf (a == b)) s) fun t =>
      t.pc = (if a.toNat = b.toNat then s.pc + 4#16 else s.pc + 2#16) ∧ OnlyChanges [.pc] s t :=
  completes_skipIf s (beq_iff_eq.trans BitVec.toNat_inj.symm)

/-- R63 and R65: the handlers that skip where two bytes differ. -/
theorem completes_skipIf_bne (s : State) (a b : Byte) :
    Completes (complete (skipIf (a != b)) s) fun t =>
      t.pc = (if a.toNat = b.toNat then s.pc + 2#16 else s.pc + 4#16) ∧ OnlyChanges [.pc] s t := by
  have h := completes_skipIf s (bne_iff_ne.trans (BitVec.toNat_inj (x := a) (y := b)).symm.not)
  simpa only [ite_not] using h

end Machine

/-- Settles O28: each word is one of format XKK or XYN, which the high nibble alone decodes, and each handler is one
`complete (skipIf _)` of the unchanged state. -/
theorem compareSkips : Obligations.CompareSkips := by
  unfold Obligations.CompareSkips
  intro s x y kk n
  refine ⟨⟨?_, Machine.completes_skipIf_beq s (s.readV x) kk⟩, ⟨?_, Machine.completes_skipIf_bne s (s.readV x) kk⟩,
    ⟨?_, Machine.completes_skipIf_beq s (s.readV x) (s.readV y)⟩,
    ⟨?_, Machine.completes_skipIf_bne s (s.readV x) (s.readV y)⟩⟩
  · exact (congrArg decodeWord (ofNat_eq_wordXKK 0x3#4 x kk)).trans (decodeWord_wordXKK_3 x kk)
  · exact (congrArg decodeWord (ofNat_eq_wordXKK 0x4#4 x kk)).trans (decodeWord_wordXKK_4 x kk)
  · exact (congrArg decodeWord (ofNat_eq_wordXYN 0x5#4 x y (.ofFin n))).trans (decodeWord_wordXYN_5 x y (.ofFin n))
  · exact (congrArg decodeWord (ofNat_eq_wordXYN 0x9#4 x y (.ofFin n))).trans (decodeWord_wordXYN_9 x y (.ofFin n))

end Sys2Proof
end


section
/-! PROOFS. The ALU instructions that write Vx and no flag (spec/42_alu.md R68 to R73): how their words decode, and the
one shape their handlers share. -/

namespace Sys2Proof

theorem decodeWord_wordXKK_6 (x : Reg) (kk : Byte) : decodeWord (wordXKK 0x6#4 x kk) = some (.ldImm x kk) := by
  simp [decodeWord, fieldKK]

theorem decodeWord_wordXKK_7 (x : Reg) (kk : Byte) : decodeWord (wordXKK 0x7#4 x kk) = some (.addImm x kk) := by
  simp [decodeWord, fieldKK]

/-- A word of the 8 family as the opcode map writes it, the operation `n` beside the family's nibble in one constant:
it is decoded by that operation (R44). -/
theorem decodeWord_ofNat_8 (x y : Reg) (n : BitVec 4) :
    decodeWord (BitVec.ofNat 16 (0x8000 + n.toNat + 0x100 * x.val + 0x10 * y.val)) =
      decode8 (wordXYN 0x8#4 x y n) := by
  have hsum : 0x8000 + n.toNat + 0x100 * x.val + 0x10 * y.val =
      (0x8#4).toNat * 0x1000 + 0x100 * x.val + 0x10 * y.val + n.toNat := by
    rw [BitVec.toNat_ofNat]
    omega
  rw [hsum, ofNat_eq_wordXYN]
  simp [decodeWord]

theorem decode8_wordXYN_0 (x y : Reg) : decode8 (wordXYN 0x8#4 x y 0x0#4) = some (.ldReg x y) := by
  simp [decode8]

theorem decode8_wordXYN_1 (x y : Reg) : decode8 (wordXYN 0x8#4 x y 0x1#4) = some (.orReg x y) := by
  simp [decode8]

theorem decode8_wordXYN_2 (x y : Reg) : decode8 (wordXYN 0x8#4 x y 0x2#4) = some (.andReg x y) := by
  simp [decode8]

theorem decode8_wordXYN_3 (x y : Reg) : decode8 (wordXYN 0x8#4 x y 0x3#4) = some (.xorReg x y) := by
  simp [decode8]

namespace Machine

theorem Completes.imp {o : Host.Outcome State Fault Refusal} {P Q : State → Prop} (h : Completes o P)
    (hPQ : ∀ t, P t → Q t) : Completes o Q := by
  obtain ⟨t, ho, hP⟩ := h
  exact ⟨t, ho, hPQ t hP⟩

theorem Part.same_trans {s t u : State} {p : Part} (hst : Part.same s t p) (htu : Part.same t u p) :
    Part.same s u p := by
  cases p <;> exact Eq.trans htu hst

/-- Two changes in a row change at most what either of them may. -/
theorem OnlyChanges.trans {ps qs : List Part} {s t u : State} (hst : OnlyChanges ps s t) (htu : OnlyChanges qs t u) :
    OnlyChanges (ps ++ qs) s u := fun p hp =>
  Part.same_trans (hst p fun h => hp (List.mem_append_left qs h)) (htu p fun h => hp (List.mem_append_right ps h))

/-- Writing a register changes that register alone. -/
theorem setV_onlyChanges (s : State) (x : Reg) (b : Byte) : OnlyChanges [.v x] s (s.setV x b) := by
  intro p hp
  cases p
  case v q =>
    have hq : q ≠ x := fun h => hp (h ▸ List.mem_singleton_self _)
    exact (readV_setV s x q b).trans (if_neg hq)
  all_goals rfl

/-- A handler that writes `b` to Vx and signals NEXT completes with Vx = `b` and PC + 2, and changes nothing else; VF
is no exception, unless it is Vx. -/
theorem completes_setV_next (s : State) (x : Reg) (b : Byte) :
    Completes (complete .next (s.setV x b)) fun t =>
      t.readV x = b ∧ t.pc = s.pc + 2#16 ∧ OnlyChanges [.v x, .pc] s t :=
  ⟨_, complete_eq .., readV_setV_self s x b, rfl, (setV_onlyChanges s x b).trans (advance_onlyChanges _ .next)⟩

end Machine

/-- Settles O21: the handler is one write of Vx. -/
theorem loadImmediateWritesVx : Obligations.LoadImmediateWritesVx := by
  unfold Obligations.LoadImmediateWritesVx
  intro s x kk
  refine ⟨?_, Machine.completes_setV_next s x kk⟩
  exact (congrArg decodeWord (ofNat_eq_wordXKK 0x6#4 x kk)).trans (decodeWord_wordXKK_6 x kk)

/-- Settles O22: the handler is one write of Vx, and byte addition is addition mod 256. -/
theorem addImmediateWrapsWithoutFlag : Obligations.AddImmediateWrapsWithoutFlag := by
  unfold Obligations.AddImmediateWrapsWithoutFlag
  intro s x kk
  refine ⟨?_, (Machine.completes_setV_next s x (s.readV x + kk)).imp fun t ⟨hvx, hrest⟩ => ⟨?_, hrest⟩⟩
  · exact (congrArg decodeWord (ofNat_eq_wordXKK 0x7#4 x kk)).trans (decodeWord_wordXKK_7 x kk)
  · rw [hvx, BitVec.toNat_add]

/-- Settles O23: each handler is one write of Vx, and the bits of the written byte are those of the bitwise
operation. -/
theorem moveAndLogicWriteVxAlone : Obligations.MoveAndLogicWriteVxAlone := by
  unfold Obligations.MoveAndLogicWriteVxAlone
  intro s x y
  refine ⟨⟨?_, Machine.completes_setV_next s x (s.readV y)⟩,
    ⟨?_, (Machine.completes_setV_next s x (s.readV x ||| s.readV y)).imp fun t ⟨hvx, hrest⟩ =>
      ⟨fun b _ => ?_, hrest⟩⟩,
    ⟨?_, (Machine.completes_setV_next s x (s.readV x &&& s.readV y)).imp fun t ⟨hvx, hrest⟩ =>
      ⟨fun b _ => ?_, hrest⟩⟩,
    ⟨?_, (Machine.completes_setV_next s x (s.readV x ^^^ s.readV y)).imp fun t ⟨hvx, hrest⟩ =>
      ⟨fun b _ => ?_, hrest⟩⟩⟩
  · exact (decodeWord_ofNat_8 x y 0x0#4).trans (decode8_wordXYN_0 x y)
  · exact (decodeWord_ofNat_8 x y 0x1#4).trans (decode8_wordXYN_1 x y)
  · rw [hvx, BitVec.getLsbD_or]
  · exact (decodeWord_ofNat_8 x y 0x2#4).trans (decode8_wordXYN_2 x y)
  · rw [hvx, BitVec.getLsbD_and]
  · exact (decodeWord_ofNat_8 x y 0x3#4).trans (decode8_wordXYN_3 x y)
  · rw [hvx, BitVec.getLsbD_xor]

end Sys2Proof
end


section
/-! PROOFS. The instructions that write I and no memory (spec/43_index_memory.md R80 to R82): how their words decode,
and the one shape their handlers share. -/

namespace Sys2Proof

/-- A word of format NNN, written as the opcode map writes it, where the address fits its field. -/
theorem ofNat_eq_wordNNN (op : BitVec 4) {nnn : Word} (hfit : nnn.toNat ≤ 0xFFF) :
    BitVec.ofNat 16 (op.toNat * 0x1000 + nnn.toNat) = wordNNN op nnn := by
  apply BitVec.eq_of_toNat_eq
  have := op.isLt
  rw [wordNNN_toNat, BitVec.toNat_ofNat]
  omega

/-- The address field gives back an address that fits it. -/
theorem fieldNNN_wordNNN_of_le (op : BitVec 4) {nnn : Word} (hfit : nnn.toNat ≤ 0xFFF) :
    fieldNNN (wordNNN op nnn) = nnn := by
  apply BitVec.eq_of_toNat_eq
  rw [fieldNNN_wordNNN]
  omega

theorem decodeWord_wordNNN_A {nnn : Word} (hfit : nnn.toNat ≤ 0xFFF) :
    decodeWord (wordNNN 0xA#4 nnn) = some (.ldI nnn) := by
  simp [decodeWord, fieldNNN_wordNNN_of_le, hfit]

/-- A word of the F family as the opcode map writes it, the operation's low byte `kk` beside the family's nibble in
one constant: it is decoded by that byte (R44). -/
theorem decodeWord_ofNat_F (x : Reg) (kk : Byte) :
    decodeWord (BitVec.ofNat 16 (0xF000 + kk.toNat + 0x100 * x.val)) = decodeF (wordXKK 0xF#4 x kk) := by
  have hsum : 0xF000 + kk.toNat + 0x100 * x.val = (0xF#4).toNat * 0x1000 + 0x100 * x.val + kk.toNat := by
    rw [BitVec.toNat_ofNat]
    omega
  rw [hsum, ofNat_eq_wordXKK]
  simp [decodeWord]

theorem decodeF_wordXKK_1E (x : Reg) : decodeF (wordXKK 0xF#4 x 0x1E#8) = some (.addI x) := by
  simp [decodeF]

theorem decodeF_wordXKK_29 (x : Reg) : decodeF (wordXKK 0xF#4 x 0x29#8) = some (.ldF x) := by
  simp [decodeF]

namespace Machine

/-- Writing I changes I alone. -/
theorem setI_onlyChanges (s : State) (w : Word) : OnlyChanges [.i] s (s.setI w) := by
  intro p hp
  cases p
  case i => exact absurd (List.mem_singleton_self Part.i) hp
  all_goals rfl

/-- A handler that writes `w` to I and signals NEXT completes with I = `w` and PC + 2, and changes nothing else: it
sets no flag and checks no range. -/
theorem completes_setI_next (s : State) (w : Word) :
    Completes (complete .next (s.setI w)) fun t =>
      t.i = w ∧ t.pc = s.pc + 2#16 ∧ OnlyChanges [.i, .pc] s t :=
  ⟨_, complete_eq .., rfl, rfl, (setI_onlyChanges s w).trans (advance_onlyChanges _ .next)⟩

/-- R81: word addition is addition mod 2^16, and the zero-extended byte keeps its value. -/
theorem indexPlus_toNat (s : State) (x : Reg) :
    (indexPlus s x).toNat = (s.i.toNat + (s.readV x).toNat) % 0x10000 := by
  simp [indexPlus]

/-- R82: five times the whole byte, which no byte carries past 16 bits. -/
theorem glyphAddr_toNat (d : Byte) : (glyphAddr d).toNat = d.toNat * 5 := by
  have := d.isLt
  rw [glyphAddr, Config.glyphBytes, BitVec.toNat_ofNat]
  omega

end Machine

/-- Settles O34: each handler is one write of I, with the address itself, the sum mod 2^16 (`indexPlus_toNat`) or five
times the byte (`glyphAddr_toNat`). -/
theorem indexRegisterWrites : Obligations.IndexRegisterWrites := by
  unfold Obligations.IndexRegisterWrites
  refine ⟨fun s nnn hfit => ⟨?_, Machine.completes_setI_next s nnn⟩, fun s x =>
    ⟨⟨?_, (Machine.completes_setI_next s (Machine.indexPlus s x)).imp fun t ⟨hi, hrest⟩ => ⟨?_, hrest⟩⟩,
      ⟨?_, (Machine.completes_setI_next s (Machine.glyphAddr (s.readV x))).imp fun t ⟨hi, hrest⟩ => ⟨?_, hrest⟩⟩⟩⟩
  · exact (congrArg decodeWord (ofNat_eq_wordNNN 0xA#4 hfit)).trans (decodeWord_wordNNN_A hfit)
  · exact (decodeWord_ofNat_F x 0x1E#8).trans (decodeF_wordXKK_1E x)
  · rw [hi, Machine.indexPlus_toNat]
  · exact (decodeWord_ofNat_F x 0x29#8).trans (decodeF_wordXKK_29 x)
  · rw [hi, Machine.glyphAddr_toNat]

end Sys2Proof
end


section
/-! PROOFS. The timer transfers (spec/45_timers_keys.md R92 to R94): how their words decode, and the one shape of the
two loads of a timer. -/

namespace Sys2Proof

theorem decodeF_wordXKK_07 (x : Reg) : decodeF (wordXKK 0xF#4 x 0x07#8) = some (.ldVxDt x) := by
  simp [decodeF]

theorem decodeF_wordXKK_15 (x : Reg) : decodeF (wordXKK 0xF#4 x 0x15#8) = some (.ldDtVx x) := by
  simp [decodeF]

theorem decodeF_wordXKK_18 (x : Reg) : decodeF (wordXKK 0xF#4 x 0x18#8) = some (.ldStVx x) := by
  simp [decodeF]

namespace Machine

/-- Writing the delay timer changes the delay timer alone. -/
theorem setDt_onlyChanges (s : State) (b : Byte) : OnlyChanges [.dt] s (s.setDt b) := by
  intro p hp
  cases p
  case dt => exact absurd (List.mem_singleton_self Part.dt) hp
  all_goals rfl

/-- Writing the sound timer changes the sound timer alone. -/
theorem setSt_onlyChanges (s : State) (b : Byte) : OnlyChanges [.st] s (s.setSt b) := by
  intro p hp
  cases p
  case st => exact absurd (List.mem_singleton_self Part.st) hp
  all_goals rfl

/-- A handler that writes `b` to DT and signals NEXT completes with DT = `b` and PC + 2, and changes nothing else. -/
theorem completes_setDt_next (s : State) (b : Byte) :
    Completes (complete .next (s.setDt b)) fun t =>
      t.dt = b ∧ t.pc = s.pc + 2#16 ∧ OnlyChanges [.dt, .pc] s t :=
  ⟨_, complete_eq .., rfl, rfl, (setDt_onlyChanges s b).trans (advance_onlyChanges _ .next)⟩

/-- A handler that writes `b` to ST and signals NEXT completes with ST = `b` and PC + 2, and changes nothing else. -/
theorem completes_setSt_next (s : State) (b : Byte) :
    Completes (complete .next (s.setSt b)) fun t =>
      t.st = b ∧ t.pc = s.pc + 2#16 ∧ OnlyChanges [.st, .pc] s t :=
  ⟨_, complete_eq .., rfl, rfl, (setSt_onlyChanges s b).trans (advance_onlyChanges _ .next)⟩

end Machine

/-- Settles O45: each handler is one write, of Vx with the delay timer or of a timer with Vx. -/
theorem timerTransfers : Obligations.TimerTransfers := by
  unfold Obligations.TimerTransfers
  intro s x
  refine ⟨⟨?_, Machine.completes_setV_next s x s.dt⟩,
    ⟨?_, Machine.completes_setDt_next s (s.readV x)⟩,
    ⟨?_, Machine.completes_setSt_next s (s.readV x)⟩⟩
  · exact (decodeWord_ofNat_F x 0x07#8).trans (decodeF_wordXKK_07 x)
  · exact (decodeWord_ofNat_F x 0x15#8).trans (decodeF_wordXKK_15 x)
  · exact (decodeWord_ofNat_F x 0x18#8).trans (decodeF_wordXKK_18 x)

end Sys2Proof
end


section
/-! PROOFS. The decoder and the encoder (spec/30_encoding.md R40 to R47): how the word of every remaining instruction
decodes, the two directions of the round trip, and the words that decode to UNKNOWN. -/

namespace Sys2Proof

/-! ### How the words of each format decode -/

theorem decodeWord_wordNNN_1 {nnn : Word} (hfit : nnn.toNat ≤ 0xFFF) :
    decodeWord (wordNNN 0x1#4 nnn) = some (.jp nnn) := by
  simp [decodeWord, fieldNNN_wordNNN_of_le, hfit]

theorem decodeWord_wordNNN_2 {nnn : Word} (hfit : nnn.toNat ≤ 0xFFF) :
    decodeWord (wordNNN 0x2#4 nnn) = some (.call nnn) := by
  simp [decodeWord, fieldNNN_wordNNN_of_le, hfit]

theorem decodeWord_wordNNN_B {nnn : Word} (hfit : nnn.toNat ≤ 0xFFF) :
    decodeWord (wordNNN 0xB#4 nnn) = some (.jpV0 nnn) := by
  simp [decodeWord, fieldNNN_wordNNN_of_le, hfit]

theorem decodeWord_wordXKK_C (x : Reg) (kk : Byte) : decodeWord (wordXKK 0xC#4 x kk) = some (.rnd x kk) := by
  simp [decodeWord, fieldKK]

theorem decodeWord_wordXKK_E (x : Reg) (kk : Byte) :
    decodeWord (wordXKK 0xE#4 x kk) = decodeE (wordXKK 0xE#4 x kk) := by
  simp [decodeWord]

theorem decodeWord_wordXKK_F (x : Reg) (kk : Byte) :
    decodeWord (wordXKK 0xF#4 x kk) = decodeF (wordXKK 0xF#4 x kk) := by
  simp [decodeWord]

theorem decodeWord_wordXYN_8 (x y : Reg) (n : BitVec 4) :
    decodeWord (wordXYN 0x8#4 x y n) = decode8 (wordXYN 0x8#4 x y n) := by
  simp [decodeWord]

theorem decodeWord_wordXYN_D (x y : Reg) (n : BitVec 4) :
    decodeWord (wordXYN 0xD#4 x y n) = some (.drw x y n.toNat) := by
  simp [decodeWord, fieldN]

theorem decode8_wordXYN_4 (x y : Reg) : decode8 (wordXYN 0x8#4 x y 0x4#4) = some (.addReg x y) := by
  simp [decode8]

theorem decode8_wordXYN_5 (x y : Reg) : decode8 (wordXYN 0x8#4 x y 0x5#4) = some (.sub x y) := by
  simp [decode8]

theorem decode8_wordXYN_6 (x y : Reg) : decode8 (wordXYN 0x8#4 x y 0x6#4) = some (.shr x y) := by
  simp [decode8]

theorem decode8_wordXYN_7 (x y : Reg) : decode8 (wordXYN 0x8#4 x y 0x7#4) = some (.subn x y) := by
  simp [decode8]

theorem decode8_wordXYN_E (x y : Reg) : decode8 (wordXYN 0x8#4 x y 0xE#4) = some (.shl x y) := by
  simp [decode8]

theorem decodeE_wordXKK_9E (x : Reg) : decodeE (wordXKK 0xE#4 x 0x9E#8) = some (.skp x) := by
  simp [decodeE]

theorem decodeE_wordXKK_A1 (x : Reg) : decodeE (wordXKK 0xE#4 x 0xA1#8) = some (.sknp x) := by
  simp [decodeE]

theorem decodeF_wordXKK_0A (x : Reg) : decodeF (wordXKK 0xF#4 x 0x0A#8) = some (.ldVxK x) := by
  simp [decodeF]

theorem decodeF_wordXKK_33 (x : Reg) : decodeF (wordXKK 0xF#4 x 0x33#8) = some (.ldB x) := by
  simp [decodeF]

theorem decodeF_wordXKK_55 (x : Reg) : decodeF (wordXKK 0xF#4 x 0x55#8) = some (.ldMemVx x) := by
  simp [decodeF]

theorem decodeF_wordXKK_65 (x : Reg) : decodeF (wordXKK 0xF#4 x 0x65#8) = some (.ldVxMem x) := by
  simp [decodeF]

/-- A word of the E family as the opcode map writes it, the operation's low byte `kk` beside the family's nibble in
one constant: it is decoded by that byte (R44). -/
theorem decodeWord_ofNat_E (x : Reg) (kk : Byte) :
    decodeWord (BitVec.ofNat 16 (0xE000 + kk.toNat + 0x100 * x.val)) = decodeE (wordXKK 0xE#4 x kk) := by
  have hsum : 0xE000 + kk.toNat + 0x100 * x.val = (0xE#4).toNat * 0x1000 + 0x100 * x.val + kk.toNat := by
    rw [BitVec.toNat_ofNat]
    omega
  rw [hsum, ofNat_eq_wordXKK, decodeWord_wordXKK_E]

/-! ### Decoding after encoding -/

theorem addrFits_iff (nnn : Word) : addrFits nnn = true ↔ nnn.toNat ≤ 0xFFF := by
  simp [addrFits]

theorem heightFits_iff (n : Nat) : heightFits n = true ↔ n ≤ 15 := by
  simp [heightFits]

/-- A sprite height that fits its nibble. -/
theorem toNat_ofNat_height {n : Nat} (h : n ≤ 15) : (BitVec.ofNat 4 n).toNat = n := by
  rw [BitVec.toNat_ofNat]
  omega

/-- The word of a well-formed instruction decodes to it, every operand included. -/
theorem decodeWord_encode {i : Instr} (hwf : i.wellFormed = true) : decodeWord (encode i) = some i := by
  cases i with
  | cls => decide
  | ret => decide
  | jp nnn => exact decodeWord_wordNNN_1 ((addrFits_iff nnn).1 hwf)
  | call nnn => exact decodeWord_wordNNN_2 ((addrFits_iff nnn).1 hwf)
  | ldI nnn => exact decodeWord_wordNNN_A ((addrFits_iff nnn).1 hwf)
  | jpV0 nnn => exact decodeWord_wordNNN_B ((addrFits_iff nnn).1 hwf)
  | seImm x kk => exact decodeWord_wordXKK_3 x kk
  | sneImm x kk => exact decodeWord_wordXKK_4 x kk
  | ldImm x kk => exact decodeWord_wordXKK_6 x kk
  | addImm x kk => exact decodeWord_wordXKK_7 x kk
  | rnd x kk => exact decodeWord_wordXKK_C x kk
  | seReg x y => exact decodeWord_wordXYN_5 x y 0x0#4
  | sneReg x y => exact decodeWord_wordXYN_9 x y 0x0#4
  | drw x y n =>
    refine (decodeWord_wordXYN_D x y (BitVec.ofNat 4 n)).trans ?_
    rw [toNat_ofNat_height ((heightFits_iff n).1 hwf)]
  | ldReg x y => exact (decodeWord_wordXYN_8 x y _).trans (decode8_wordXYN_0 x y)
  | orReg x y => exact (decodeWord_wordXYN_8 x y _).trans (decode8_wordXYN_1 x y)
  | andReg x y => exact (decodeWord_wordXYN_8 x y _).trans (decode8_wordXYN_2 x y)
  | xorReg x y => exact (decodeWord_wordXYN_8 x y _).trans (decode8_wordXYN_3 x y)
  | addReg x y => exact (decodeWord_wordXYN_8 x y _).trans (decode8_wordXYN_4 x y)
  | sub x y => exact (decodeWord_wordXYN_8 x y _).trans (decode8_wordXYN_5 x y)
  | shr x y => exact (decodeWord_wordXYN_8 x y _).trans (decode8_wordXYN_6 x y)
  | subn x y => exact (decodeWord_wordXYN_8 x y _).trans (decode8_wordXYN_7 x y)
  | shl x y => exact (decodeWord_wordXYN_8 x y _).trans (decode8_wordXYN_E x y)
  | skp x => exact (decodeWord_wordXKK_E x _).trans (decodeE_wordXKK_9E x)
  | sknp x => exact (decodeWord_wordXKK_E x _).trans (decodeE_wordXKK_A1 x)
  | ldVxDt x => exact (decodeWord_wordXKK_F x _).trans (decodeF_wordXKK_07 x)
  | ldVxK x => exact (decodeWord_wordXKK_F x _).trans (decodeF_wordXKK_0A x)
  | ldDtVx x => exact (decodeWord_wordXKK_F x _).trans (decodeF_wordXKK_15 x)
  | ldStVx x => exact (decodeWord_wordXKK_F x _).trans (decodeF_wordXKK_18 x)
  | addI x => exact (decodeWord_wordXKK_F x _).trans (decodeF_wordXKK_1E x)
  | ldF x => exact (decodeWord_wordXKK_F x _).trans (decodeF_wordXKK_29 x)
  | ldB x => exact (decodeWord_wordXKK_F x _).trans (decodeF_wordXKK_33 x)
  | ldMemVx x => exact (decodeWord_wordXKK_F x _).trans (decodeF_wordXKK_55 x)
  | ldVxMem x => exact (decodeWord_wordXKK_F x _).trans (decodeF_wordXKK_65 x)

/-- A word that decodes is not the end sentinel. -/
theorem ne_sentinel_of_decodeWord {w : Word} {i : Instr} (h : decodeWord w = some i) : w ≠ 0x0000#16 := by
  rintro rfl
  rw [Machine.decodeWord_sentinel] at h
  cases h

/-- Two bytes whose word decodes, whatever follows them. -/
theorem decode_of_decodeWord {hi lo : Byte} {i : Instr} (h : decodeWord (wordOfBytes hi lo) = some i)
    (rest : List Byte) : decode (hi :: lo :: rest) = .ok (i, rest) := by
  simp only [decode, if_neg (ne_sentinel_of_decodeWord h), h]

theorem decodeWord_of_decode {hi lo : Byte} {i : Instr} {rest : List Byte}
    (h : decode (hi :: lo :: rest) = .ok (i, rest)) : decodeWord (wordOfBytes hi lo) = some i := by
  by_cases h0 : wordOfBytes hi lo = 0#16
  · simp [decode, h0] at h
  · cases hd : decodeWord (wordOfBytes hi lo) with
    | none => simp [decode, h0, hd] at h
    | some j => simpa [decode, h0, hd] using h

/-- Settles O2: the two bytes make the instruction's word again (`wordOfBytes_bytes`), and the word decodes to the
instruction (`decodeWord_encode`), so it is not the sentinel either. -/
theorem decodeInvertsEncode : Obligations.DecodeInvertsEncode := by
  unfold Obligations.DecodeInvertsEncode
  intro i rest hwf
  refine decode_of_decodeWord ?_ rest
  rw [wordOfBytes_bytes, decodeWord_encode hwf]

/-! ### Encoding after decoding -/

section
variable {w : Word} {i : Instr} {op : BitVec 4}

/-- A word is the word of format NNN of its own fields. -/
theorem wordNNN_fields (hop : (nibble1 w).toNat = op.toNat) : wordNNN op (fieldNNN w) = w := by
  apply BitVec.eq_of_toNat_eq
  rw [wordNNN_toNat, ← hop, nibble1_toNat, fieldNNN_toNat]
  omega

/-- A word is the word of format XKK of its own fields. -/
theorem wordXKK_fields {kk : Byte} (hop : (nibble1 w).toNat = op.toNat) (hkk : lowByte w = kk) :
    wordXKK op (fieldX w) kk = w := by
  apply BitVec.eq_of_toNat_eq
  rw [wordXKK_toNat, ← hop, ← hkk, nibble1_toNat, fieldX_val, lowByte_toNat]
  omega

/-- A word is the word of format XYN of its own fields. -/
theorem wordXYN_fields {n : BitVec 4} (hop : (nibble1 w).toNat = op.toNat) (hn : nibble4 w = n) :
    wordXYN op (fieldX w) (fieldY w) n = w := by
  apply BitVec.eq_of_toNat_eq
  rw [wordXYN_toNat, ← hop, ← hn, nibble1_toNat, fieldX_val, fieldY_val, nibble4_toNat]
  omega

/-- Nibble 4 written as 0 clears it and keeps the rest of the word. -/
theorem wordXYN_fields_zero (hop : (nibble1 w).toNat = op.toNat) :
    (wordXYN op (fieldX w) (fieldY w) 0x0#4).toNat = w.toNat / 0x10 * 0x10 := by
  rw [wordXYN_toNat, ← hop, nibble1_toNat, fieldX_val, fieldY_val, BitVec.toNat_ofNat]
  omega

theorem encode_of_decode0 (h : decode0 w = some i) : encode i = w := by
  unfold decode0 at h
  split_ifs at h with hw hw <;> cases h <;> exact hw.symm

theorem encode_of_decode8 (hop : (nibble1 w).toNat = 0x8) (h : decode8 w = some i) : encode i = w := by
  unfold decode8 at h
  split_ifs at h with h4 h4 h4 h4 h4 h4 h4 h4 h4 <;> cases h <;> exact wordXYN_fields hop h4

theorem encode_of_decodeE (hop : (nibble1 w).toNat = 0xE) (h : decodeE w = some i) : encode i = w := by
  unfold decodeE at h
  split_ifs at h with hk hk <;> cases h <;> exact wordXKK_fields hop hk

theorem encode_of_decodeF (hop : (nibble1 w).toNat = 0xF) (h : decodeF w = some i) : encode i = w := by
  unfold decodeF at h
  split_ifs at h with hk hk hk hk hk hk hk hk hk <;> cases h <;> exact wordXKK_fields hop hk

/-- Outside the 5 and 9 families the encoder gives a decoded word back bit by bit. -/
theorem encode_of_decodeWord (h : decodeWord w = some i) (h5 : nibble1 w ≠ 0x5#4) (h9 : nibble1 w ≠ 0x9#4) :
    encode i = w := by
  unfold decodeWord at h
  split at h
  case h_1 => exact encode_of_decode0 h
  case h_2 hop | h_3 hop | h_11 hop | h_12 hop => cases h; exact wordNNN_fields hop
  case h_4 hop | h_5 hop | h_7 hop | h_8 hop | h_13 hop => cases h; exact wordXKK_fields hop rfl
  case h_6 hop => exact absurd (BitVec.eq_of_toNat_eq hop) h5
  case h_9 hop => exact encode_of_decode8 hop h
  case h_10 hop => exact absurd (BitVec.eq_of_toNat_eq hop) h9
  case h_14 hop =>
    cases h
    exact wordXYN_fields hop (by simp [fieldN])
  case h_15 hop => exact encode_of_decodeE hop h
  case h_16 hop => exact encode_of_decodeF hop h
  case h_17 => cases h

/-- In the 5 and 9 families the encoder gives a decoded word back with nibble 4 as 0. -/
theorem encode_of_decodeWord_nibble1_eq_5_or_9 (h : decodeWord w = some i)
    (h59 : nibble1 w = 0x5#4 ∨ nibble1 w = 0x9#4) : (encode i).toNat = w.toNat / 0x10 * 0x10 := by
  rcases h59 with h5 | h9
  · rw [decodeWord_of_nibble1_eq_5 h5] at h
    cases h
    exact wordXYN_fields_zero (congrArg BitVec.toNat h5)
  · rw [decodeWord_of_nibble1_eq_9 h9] at h
    cases h
    exact wordXYN_fields_zero (congrArg BitVec.toNat h9)

/-! ### What the decoder gives, and the words it gives nothing for -/

theorem wellFormed_of_decode0 (h : decode0 w = some i) : i.wellFormed = true := by
  unfold decode0 at h
  split_ifs at h <;> cases h <;> rfl

theorem wellFormed_of_decode8 (h : decode8 w = some i) : i.wellFormed = true := by
  unfold decode8 at h
  split_ifs at h <;> cases h <;> rfl

theorem wellFormed_of_decodeE (h : decodeE w = some i) : i.wellFormed = true := by
  unfold decodeE at h
  split_ifs at h <;> cases h <;> rfl

theorem wellFormed_of_decodeF (h : decodeF w = some i) : i.wellFormed = true := by
  unfold decodeF at h
  split_ifs at h <;> cases h <;> rfl

theorem addrFits_fieldNNN (w : Word) : addrFits (fieldNNN w) = true := by
  rw [addrFits_iff, fieldNNN_toNat]
  omega

theorem heightFits_fieldN (w : Word) : heightFits (fieldN w) = true := by
  have := (nibble4 w).isLt
  rw [heightFits_iff, fieldN]
  omega

theorem wellFormed_of_decodeWord (h : decodeWord w = some i) : i.wellFormed = true := by
  unfold decodeWord at h
  split at h
  case h_1 => exact wellFormed_of_decode0 h
  case h_9 => exact wellFormed_of_decode8 h
  case h_15 => exact wellFormed_of_decodeE h
  case h_16 => exact wellFormed_of_decodeF h
  case h_2 | h_3 | h_11 | h_12 => cases h; exact addrFits_fieldNNN w
  case h_14 => cases h; exact heightFits_fieldN w
  case h_17 => cases h
  all_goals cases h; rfl

/-- One test of a decoder that goes through its selectors in turn. -/
theorem ite_some_eq_none_iff {p : Prop} [Decidable p] {o : Option Instr} :
    (if p then some i else o) = none ↔ ¬ p ∧ o = none := by
  split <;> simp [*]

/-- The words of the 0 family with no instruction (decision D3). -/
theorem decode0_eq_none_iff (w : Word) : decode0 w = none ↔ w.toNat ≠ 0x00E0 ∧ w.toNat ≠ 0x00EE := by
  simp [decode0, ite_some_eq_none_iff, BitVec.toNat_eq]

/-- The selectors of the 8 family with no instruction. -/
theorem decode8_eq_none_iff (w : Word) :
    decode8 w = none ↔ w.toNat % 0x10 ∈ [0x8, 0x9, 0xA, 0xB, 0xC, 0xD, 0xF] := by
  simp only [decode8, ite_some_eq_none_iff, BitVec.toNat_eq, nibble4_toNat, BitVec.toNat_ofNat, List.mem_cons,
    List.not_mem_nil, or_false, and_true]
  omega

/-- The selectors of the E family with no instruction. -/
theorem decodeE_eq_none_iff (w : Word) : decodeE w = none ↔ w.toNat % 0x100 ∉ [0x9E, 0xA1] := by
  simp [decodeE, ite_some_eq_none_iff, BitVec.toNat_eq, lowByte_toNat]

/-- The selectors of the F family with no instruction. -/
theorem decodeF_eq_none_iff (w : Word) :
    decodeF w = none ↔ w.toNat % 0x100 ∉ [0x07, 0x0A, 0x15, 0x18, 0x1E, 0x29, 0x33, 0x55, 0x65] := by
  simp [decodeF, ite_some_eq_none_iff, BitVec.toNat_eq, lowByte_toNat]

/-- Outside the 0, 8, E and F families every word decodes. -/
theorem decodeWord_ne_none (h0 : nibble1 w ≠ 0x0#4) (h8 : nibble1 w ≠ 0x8#4) (hE : nibble1 w ≠ 0xE#4)
    (hF : nibble1 w ≠ 0xF#4) : decodeWord w ≠ none := by
  intro hnone
  have h := decodeWord_map_opcodeRow h0 h8 hE hF
  rw [hnone] at h
  cases h

end

/-- Settles O4: every field the encoder writes is the one the decoder read, nibble 4 of the 5 and 9 families apart. -/
theorem encodeInvertsDecode : Obligations.EncodeInvertsDecode := by
  unfold Obligations.EncodeInvertsDecode
  intro w i h
  split
  next h59 => exact encode_of_decodeWord_nibble1_eq_5_or_9 h h59
  next h59 =>
    obtain ⟨h5, h9⟩ := not_or.1 h59
    rw [encode_of_decodeWord h h5 h9]

/-- Settles O3: the address field has 12 bits and the sprite height is a nibble (`addrFits_fieldNNN`,
`heightFits_fieldN`). -/
theorem decodedInstructionsAreWellFormed : Obligations.DecodedInstructionsAreWellFormed := by
  unfold Obligations.DecodedInstructionsAreWellFormed
  exact fun _ _ => wellFormed_of_decodeWord

/-- Settles O6: by the family; outside 0, 8, E and F every word decodes, and each of those four has its list of unused
selectors. -/
theorem illegalWordsAreExactlyThese : Obligations.IllegalWordsAreExactlyThese := by
  unfold Obligations.IllegalWordsAreExactlyThese
  intro w
  have hfam := nibble1_toNat w
  by_cases h0 : nibble1 w = 0x0#4
  · have hd : decodeWord w = decode0 w := by simp [decodeWord, h0]
    rw [h0, BitVec.toNat_ofNat] at hfam
    rw [hd, decode0_eq_none_iff, ← hfam]
    omega
  by_cases h8 : nibble1 w = 0x8#4
  · have hd : decodeWord w = decode8 w := by simp [decodeWord, h8]
    rw [h8, BitVec.toNat_ofNat] at hfam
    have hle : ¬ w.toNat ≤ 0x0FFF := by omega
    simp [hd, decode8_eq_none_iff, ← hfam, hle]
  by_cases hE : nibble1 w = 0xE#4
  · have hd : decodeWord w = decodeE w := by simp [decodeWord, hE]
    rw [hE, BitVec.toNat_ofNat] at hfam
    have hle : ¬ w.toNat ≤ 0x0FFF := by omega
    simp [hd, decodeE_eq_none_iff, ← hfam, hle]
  by_cases hF : nibble1 w = 0xF#4
  · have hd : decodeWord w = decodeF w := by simp [decodeWord, hF]
    rw [hF, BitVec.toNat_ofNat] at hfam
    have hle : ¬ w.toNat ≤ 0x0FFF := by omega
    simp [hd, decodeF_eq_none_iff, ← hfam, hle]
  · refine iff_of_false (decodeWord_ne_none h0 h8 hE hF) ?_
    rw [BitVec.toNat_eq, hfam, BitVec.toNat_ofNat] at h0 h8 hE hF
    omega

/-- Settles O1: each word has the format of its instruction, with the operands as its nibbles. -/
theorem opcodeMapWordsDecode : Obligations.OpcodeMapWordsDecode := by
  unfold Obligations.OpcodeMapWordsDecode
  decide

end Sys2Proof
end


section
/-! PROOFS. What each write of the state leaves unchanged, and for each handler with more than one write the parts it
may change. -/

namespace Sys2Proof.Machine

section
variable {P Q : Part → Prop} {s t u : State}

theorem UnchangedBut.trans (hst : UnchangedBut P s t) (htu : UnchangedBut Q t u) :
    UnchangedBut (fun p => P p ∨ Q p) s u := fun p hp =>
  Part.same_trans (hst p fun h => hp (.inl h)) (htu p fun h => hp (.inr h))

theorem UnchangedBut.mono (hst : UnchangedBut P s t) (hPQ : ∀ p, P p → Q p) : UnchangedBut Q s t := fun p hp =>
  hst p fun h => hp (hPQ p h)

theorem OnlyChanges.of_subset {ps qs : List Part} (h : OnlyChanges ps s t) (hsub : ps ⊆ qs) : OnlyChanges qs s t :=
  UnchangedBut.mono h fun _ hp => hsub hp

end

section
variable (s : State)

/-! ### One write -/

/-- Writing PC changes PC alone. -/
theorem setPc_onlyChanges (w : Word) : OnlyChanges [.pc] s (s.setPc w) := by
  intro p hp
  cases p
  case pc => exact absurd (List.mem_singleton_self Part.pc) hp
  all_goals rfl

/-- Writing SP changes SP alone: a pop leaves its slot as it is. -/
theorem withSp_onlyChanges (n : Fin 17) : OnlyChanges [.sp] s { s with sp := n } := by
  intro p hp
  cases p
  case sp => exact absurd (List.mem_singleton_self Part.sp) hp
  all_goals rfl

/-- Writing a stack slot changes that slot alone. -/
theorem withSlot_onlyChanges (j : Fin 16) (w : Word) :
    OnlyChanges [.stack j] s { s with stack := s.stack.set j.val w } := by
  intro p hp
  cases p
  case stack k =>
    have hk : j.val ≠ k.val := fun h => hp (List.mem_singleton.2 (congrArg Part.stack (Fin.ext h.symm)))
    exact Vector.getElem_set_ne j.isLt k.isLt hk
  all_goals rfl

/-- Taking a draw changes the count of draws alone. -/
theorem draw_onlyChanges : OnlyChanges [.draws] s s.draw.2 := by
  intro p hp
  cases p
  case draws => exact absurd (List.mem_singleton_self Part.draws) hp
  all_goals rfl

/-- Writing a key changes that key alone. -/
theorem setKey_onlyChanges (k : Key) (b : Bool) : OnlyChanges [.key k] s (s.setKey k b) := by
  intro p hp
  cases p
  case key q =>
    have hq : q ≠ k := fun h => hp (h ▸ List.mem_singleton_self _)
    exact (keyPressed_setKey s k q b).trans (if_neg hq)
  all_goals rfl

/-- The end of a run changes the status alone. -/
theorem endRun_onlyChanges : OnlyChanges [.status] s s.endRun := by
  intro p hp
  cases p
  case status => exact absurd (List.mem_singleton_self Part.status) hp
  all_goals rfl

/-- Writing the screen changes cells and the draw flag alone. -/
theorem setScreen_unchangedBut (fb : Framebuffer) (d : Bool) :
    UnchangedBut (fun p => p = .drawFlag ∨ ∃ px py, p = .cell px py) s (s.setScreen fb d) := by
  intro p hp
  cases p
  case drawFlag => exact absurd (.inl rfl) hp
  case cell px py => exact absurd (.inr ⟨px, py, rfl⟩) hp
  all_goals rfl

/-- Writing bytes at `a` changes the bytes from `a` on, as many as are written, and nothing else. -/
theorem writeBytes_unchangedBut (a : Nat) (ws : List Byte) :
    UnchangedBut (fun p => ∃ j, j < ws.length ∧ p = .byte (a + j)) s { s with mem := s.mem.writeBytes a ws } := by
  intro p hp
  cases p
  case byte b =>
    have hb : ¬ (a ≤ b ∧ b - a < ws.length) := fun ⟨hab, hlt⟩ => hp ⟨b - a, hlt, by rw [Nat.add_sub_cancel' hab]⟩
    exact (read_writeBytes s.mem a ws b).trans (dif_neg hb)
  all_goals rfl

/-- Loading bytes into V0 and on changes as many registers as there are bytes, and nothing else. -/
theorem loadBlock_unchangedBut (bs : List Byte) (hlen : bs.length ≤ 16) :
    UnchangedBut (fun p => ∃ r : Reg, r.val < bs.length ∧ p = .v r) s (s.loadBlock 0 bs) := by
  intro p hp
  cases p
  case v q =>
    have hq : ¬ (0 ≤ q.val ∧ q.val - 0 < bs.length) := fun ⟨_, hlt⟩ => hp ⟨q, hlt, rfl⟩
    exact (readV_loadBlock s 0 bs (by omega) q).trans (dif_neg hq)
  all_goals rw [loadBlock_eq]; rfl

/-! ### The writes of one handler -/

/-- R15: VF, then Vx. -/
theorem setFlagThenV_onlyChanges (f : Byte) (x : Reg) (b : Byte) :
    OnlyChanges [.v vf, .v x] s (s.setFlagThenV f x b) :=
  (setV_onlyChanges s vf f).trans (setV_onlyChanges _ x b)

/-- R59, a pop, PC set to the popped word, and the PC advance. -/
theorem ret_onlyChanges (n : Fin 17) (w : Word) :
    OnlyChanges [.sp, .pc] s ((({ s with sp := n } : State).setPc w).advance .next) :=
  ((withSp_onlyChanges s n).trans ((setPc_onlyChanges _ w).trans (advance_onlyChanges _ .next))).of_subset (by simp)

/-- R60 and R66, a jump. -/
theorem jump_onlyChanges (w : Word) : OnlyChanges [.pc] s ((s.setPc w).advance .none) :=
  ((setPc_onlyChanges s w).trans (advance_onlyChanges _ .none)).of_subset (by simp)

/-- R61, a push of `a` into slot `j` and a jump. -/
theorem call_onlyChanges (j : Fin 16) (n : Fin 17) (a w : Word) :
    OnlyChanges [.stack j, .sp, .pc] s
      ((({ s with stack := s.stack.set j.val a, sp := n } : State).setPc w).advance .none) :=
  (withSlot_onlyChanges s j a).trans ((withSp_onlyChanges _ n).trans (jump_onlyChanges _ w))

/-- R83, three bytes at I. -/
theorem ldB_onlyChanges (x : Reg) :
    OnlyChanges [.byte (indexAddr s), .byte (indexAddr s + 1), .byte (indexAddr s + 2), .pc] s
      (({ s with mem := s.mem.writeBytes (indexAddr s) (bcdDigits (s.readV x)) } : State).advance .next) := by
  refine ((writeBytes_unchangedBut s _ _).trans (advance_onlyChanges _ .next)).mono ?_
  rintro p (⟨j, hj, rfl⟩ | hp)
  · rw [length_bcdDigits] at hj
    interval_cases j <;> simp
  · exact List.mem_append_right [_, _, _] hp

/-- R84, the bytes of V0 to Vx at I, and I. -/
theorem ldMemVx_unchangedBut (x : Reg) (w : Word) :
    UnchangedBut (fun p => p = .i ∨ p = .pc ∨ ∃ r : Reg, r.val ≤ x.val ∧ p = .byte (indexAddr s + r.val)) s
      ((({ s with mem := s.mem.writeBytes (indexAddr s) (s.firstV (blockCount x)) } : State).setI w).advance
        .next) := by
  refine ((writeBytes_unchangedBut s _ _).trans ((setI_onlyChanges _ w).trans (advance_onlyChanges _ .next))).mono ?_
  rintro p (⟨j, hj, rfl⟩ | hp)
  · rw [length_firstV s (by unfold blockCount; omega), blockCount] at hj
    exact .inr (.inr ⟨⟨j, by omega⟩, by show j ≤ _; omega, rfl⟩)
  · simp only [List.cons_append, List.nil_append, List.mem_cons, List.not_mem_nil, or_false] at hp
    exact hp.imp_right .inl

/-- R85, V0 to Vx and I. -/
theorem ldVxMem_unchangedBut (x : Reg) (w : Word) :
    UnchangedBut (fun p => p = .i ∨ p = .pc ∨ ∃ r : Reg, r.val ≤ x.val ∧ p = .v r) s
      (((s.loadBlock 0 (s.mem.readBytes (indexAddr s) (blockCount x))).setI w).advance .next) := by
  have hlen : (s.mem.readBytes (indexAddr s) (blockCount x)).length = x.val + 1 := length_readBytes ..
  refine ((loadBlock_unchangedBut s _ (by omega)).trans
    ((setI_onlyChanges _ w).trans (advance_onlyChanges _ .next))).mono ?_
  rintro p (⟨r, hr, rfl⟩ | hp)
  · exact .inr (.inr ⟨r, by omega, rfl⟩)
  · simp only [List.cons_append, List.nil_append, List.mem_cons, List.not_mem_nil, or_false] at hp
    exact hp.imp_right .inl

/-- R86, the screen alone. -/
theorem cls_unchangedBut (fb : Framebuffer) (d : Bool) :
    UnchangedBut (fun p => p = .drawFlag ∨ p = .pc ∨ ∃ px py, p = .cell px py) s
      ((s.setScreen fb d).advance .next) := by
  refine ((setScreen_unchangedBut s fb d).trans (advance_onlyChanges _ .next)).mono ?_
  rintro p ((hp | hp) | hp)
  · exact .inl hp
  · exact .inr (.inr hp)
  · exact .inr (.inl (List.mem_singleton.1 hp))

/-- R87, the screen and VF. -/
theorem drw_unchangedBut (fb : Framebuffer) (d : Bool) (f : Byte) :
    UnchangedBut (fun p => p = .v vf ∨ p = .drawFlag ∨ p = .pc ∨ ∃ px py, p = .cell px py) s
      (((s.setScreen fb d).setV vf f).advance .next) := by
  refine ((setScreen_unchangedBut s fb d).trans
    ((setV_onlyChanges _ vf f).trans (advance_onlyChanges _ .next))).mono ?_
  rintro p ((hp | hp) | hp)
  · exact .inr (.inl hp)
  · exact .inr (.inr (.inr hp))
  · simp only [List.cons_append, List.nil_append, List.mem_cons, List.not_mem_nil, or_false] at hp
    exact hp.imp_right fun h => .inr (.inl h)

end

end Sys2Proof.Machine
end


section
/-! PROOFS. Everything an instruction can do, said once: it raises a runtime error for a cause of its own, or it
completes with the PC of its kind and changes no part outside its footprint. The rules about every Step rest on it. -/

namespace Sys2Proof.Machine

/-! ### Every instruction answers -/

theorem exec_answers (i : Instr) (s : State) : ∃ t, exec i s = .next t := by
  cases i
  case ret | jp | jpV0 | drw | ldB | ldMemVx | ldVxMem | skp | sknp | ldVxK =>
    simp only [exec, execRet, execJp, execJpV0, jumpTo, execDrw, execLdB, execLdMemVx, execLdVxMem, execSkp, execSknp,
      execLdVxK]
    split <;> exact ⟨_, rfl⟩
  case call =>
    simp only [exec, execCall]
    split
    · split <;> exact ⟨_, rfl⟩
    · exact ⟨_, rfl⟩
  -- the handlers that are one `complete`
  all_goals exact ⟨_, rfl⟩

/-- What holds of every answer of an instruction, it completes with. -/
theorem completes_exec {i : Instr} {s : State} {P : State → Prop} (h : ∀ t, exec i s = .next t → P t) :
    Completes (exec i s) P := by
  obtain ⟨t, ht⟩ := exec_answers i s
  exact ⟨t, ht, h t ht⟩

theorem step_answers (s : State) : ∃ t, step s = .next t := by
  by_cases hr : s.status = .running
  · cases hf : s.fetchWord with
    | none => exact ⟨_, step_of_fetch_none hr hf⟩
    | some w =>
      by_cases h0 : w = 0x0000#16
      · exact ⟨_, step_of_sentinel hr (h0 ▸ hf)⟩
      · cases hd : decodeWord w with
        | none => exact ⟨_, step_of_unknown hr hf h0 hd⟩
        | some i =>
          rw [step_of_known hr hf h0 hd]
          exact exec_answers i s
  · exact ⟨s, step_of_not_running hr⟩

/-! ### Causes, PCs and footprints -/

/-- Instruction `i` raises a runtime error in `s`, of this kind and with this info (spec/60_exceptions.md R97). -/
inductive Raises (s : State) : Instr → FaultKind → Word → Prop where
  | ret (h : s.sp.val = 0) : Raises s .ret .stackUnderflow s.pc
  | jp {nnn : Word} (h : ¬ (0x200 ≤ nnn.toNat ∧ nnn.toNat ≤ 0xFFF)) : Raises s (.jp nnn) .addressError nnn
  | callTarget {nnn : Word} (h : ¬ (0x200 ≤ nnn.toNat ∧ nnn.toNat ≤ 0xFFF)) : Raises s (.call nnn) .addressError nnn
  | callFull {nnn : Word} (h : 0x200 ≤ nnn.toNat) (hsp : s.sp.val = 16) : Raises s (.call nnn) .stackOverflow s.pc
  | jpV0 {nnn : Word} (h : ¬ (0x200 ≤ offsetTarget s nnn ∧ offsetTarget s nnn ≤ 0xFFF)) :
      Raises s (.jpV0 nnn) .addressError (BitVec.ofNat 16 (offsetTarget s nnn))
  | drw {x y : Reg} {n : Nat} (hn : 0 < n) (h : 0xFFF < indexAddr s + n - 1) :
      Raises s (.drw x y n) .boundsError s.i
  | ldB {x : Reg} (h : 0xFFF < indexAddr s + 2) : Raises s (.ldB x) .boundsError s.i
  | ldMemVx {x : Reg} (h : 0xFFF < indexAddr s + x.val) : Raises s (.ldMemVx x) .boundsError s.i
  | ldVxMem {x : Reg} (h : 0xFFF < indexAddr s + x.val) : Raises s (.ldVxMem x) .boundsError s.i
  | skp {x : Reg} (h : 0xF < (s.readV x).toNat) : Raises s (.skp x) .boundsError ((s.readV x).zeroExtend 16)
  | sknp {x : Reg} (h : 0xF < (s.readV x).toNat) : Raises s (.sknp x) .boundsError ((s.readV x).zeroExtend 16)

/-- PC after instruction `i` completes from `s` (spec/40_cycle.md R55, R56). -/
def NextPc (s : State) : Instr → Word → Prop
  | .jp nnn, pc | .call nnn, pc => pc = nnn ∧ nnn.toNat ≤ 0xFFF
  | .jpV0 nnn, pc => pc.toNat = offsetTarget s nnn ∧ offsetTarget s nnn ≤ 0xFFF
  | .ret, pc => ∃ j : Fin 16, j.val + 1 = s.sp.val ∧ pc = s.stack[j.val] + 2#16
  | .seImm _ _, pc | .sneImm _ _, pc | .seReg _ _, pc | .sneReg _ _, pc | .skp _, pc | .sknp _, pc =>
    pc = s.pc + 2#16 ∨ pc = s.pc + 4#16
  | .ldVxK _, pc => pc = s.pc ∨ pc = s.pc + 2#16
  | _, pc => pc = s.pc + 2#16

/-- The parts that instruction `i` may change when it completes from `s`. -/
def footprint (s : State) : Instr → Part → Prop
  | .cls, p => p = .drawFlag ∨ p = .pc ∨ ∃ px py, p = .cell px py
  | .ret, p => p ∈ [.sp, .pc]
  | .jp _, p | .jpV0 _, p => p ∈ [.pc]
  | .call _, p => ∃ j : Fin 16, j.val = s.sp.val ∧ p ∈ [.stack j, .sp, .pc]
  | .seImm _ _, p | .sneImm _ _, p | .seReg _ _, p | .sneReg _ _, p | .skp _, p | .sknp _, p => p ∈ [.pc]
  | .ldImm x _, p | .addImm x _, p | .ldReg x _, p | .orReg x _, p | .andReg x _, p | .xorReg x _, p =>
    p ∈ [.v x, .pc]
  | .addReg x _, p | .sub x _, p | .subn x _, p | .shr x _, p | .shl x _, p => p ∈ [.v vf, .v x, .pc]
  | .rnd x _, p => p ∈ [.draws, .v x, .pc]
  | .ldI _, p | .addI _, p | .ldF _, p => p ∈ [.i, .pc]
  | .drw _ _ _, p => p = .v vf ∨ p = .drawFlag ∨ p = .pc ∨ ∃ px py, p = .cell px py
  | .ldVxDt x, p | .ldVxK x, p => p ∈ [.v x, .pc]
  | .ldDtVx _, p => p ∈ [.dt, .pc]
  | .ldStVx _, p => p ∈ [.st, .pc]
  | .ldB _, p => p ∈ [.byte (indexAddr s), .byte (indexAddr s + 1), .byte (indexAddr s + 2), .pc]
  | .ldMemVx x, p => p = .i ∨ p = .pc ∨ ∃ r : Reg, r.val ≤ x.val ∧ p = .byte (indexAddr s + r.val)
  | .ldVxMem x, p => p = .i ∨ p = .pc ∨ ∃ r : Reg, r.val ≤ x.val ∧ p = .v r

/-- Instruction `i` completes from `s` in `t`. -/
structure Completed (s : State) (i : Instr) (t : State) : Prop where
  frame : UnchangedBut (footprint s i) s t
  pc : NextPc s i t.pc
  mem : t.mem = s.mem ∨ ∃ a ws, a + ws.length ≤ Config.memSize ∧ t.mem = s.mem.writeBytes a ws

theorem ofNat_directTarget (nnn : Word) : BitVec.ofNat 16 (directTarget nnn) = nnn := by
  simp [directTarget]

theorem pc_add_skipIf (w : Word) (c : Bool) :
    w + advanceBy (skipIf c) = w + 2#16 ∨ w + advanceBy (skipIf c) = w + 4#16 := by
  cases c
  · exact .inl rfl
  · exact .inr rfl

/-- A handler that only picks between SKIP and NEXT. -/
theorem advance_skipIf_completed {s : State} {c : Bool} {i : Instr} (hf : footprint s i = (· ∈ [.pc]))
    (hp : NextPc s i = fun pc => pc = s.pc + 2#16 ∨ pc = s.pc + 4#16) : Completed s i (s.advance (skipIf c)) where
  frame := hf ▸ advance_onlyChanges s _
  pc := hp ▸ pc_add_skipIf s.pc c
  mem := .inl rfl

/-- A jump that completes. -/
theorem jump_pc (s : State) (w : Word) : ((s.setPc w).advance .none).pc = w := BitVec.add_zero w

/-- Everything an instruction can do. -/
theorem exec_cases {i : Instr} {s t : State} (h : exec i s = .next t) :
    (∃ k info, Raises s i k info ∧ t = s.raise k (some (encode i)) info) ∨ Completed s i t := by
  cases i
  case ret =>
    rcases execRet_cases h with ⟨h0, rfl⟩ | ⟨j, hj, rfl⟩
    · exact .inl ⟨_, _, .ret h0, rfl⟩
    · exact .inr ⟨ret_onlyChanges s _ _, ⟨j, hj, rfl⟩, .inl rfl⟩
  case jp nnn =>
    rcases jumpTo_cases h with ⟨hbad, rfl⟩ | ⟨-, hle, rfl⟩ <;> rw [ofNat_directTarget]
    · exact .inl ⟨_, _, .jp hbad, rfl⟩
    · exact .inr ⟨jump_onlyChanges s nnn, ⟨jump_pc s nnn, hle⟩, .inl rfl⟩
  case jpV0 nnn =>
    rcases jumpTo_cases h with ⟨hbad, rfl⟩ | ⟨-, hle, rfl⟩
    · exact .inl ⟨_, _, .jpV0 hbad, rfl⟩
    · refine .inr ⟨jump_onlyChanges s _, ⟨?_, hle⟩, .inl rfl⟩
      rw [jump_pc, BitVec.toNat_ofNat]
      omega
  case call nnn =>
    rcases execCall_cases h with ⟨hbad, rfl⟩ | ⟨hge, -, hsp, rfl⟩ | ⟨-, hle, hlt, rfl⟩
    · exact .inl ⟨_, _, .callTarget hbad, rfl⟩
    · exact .inl ⟨_, _, .callFull hge hsp, rfl⟩
    · refine .inr ⟨?_, ⟨jump_pc _ nnn, hle⟩, .inl rfl⟩
      exact UnchangedBut.mono (call_onlyChanges s ⟨s.sp.val, hlt⟩ _ s.pc nnn) fun p hp => ⟨_, rfl, hp⟩
  case drw x y n =>
    rcases execDrw_cases h with ⟨hn, hbad, rfl⟩ | ⟨-, b, -, rfl⟩
    · exact .inl ⟨_, _, .drw hn hbad, rfl⟩
    · exact .inr ⟨drw_unchangedBut s _ _ _, rfl, .inl rfl⟩
  case ldB x =>
    rcases execLdB_cases h with ⟨hbad, rfl⟩ | ⟨hle, rfl⟩
    · exact .inl ⟨_, _, .ldB hbad, rfl⟩
    · refine .inr ⟨ldB_onlyChanges s x, rfl, .inr ⟨_, _, ?_, rfl⟩⟩
      rw [length_bcdDigits, Config.memSize]
      omega
  case ldMemVx x =>
    rcases execLdMemVx_cases h with ⟨hbad, rfl⟩ | ⟨hle, rfl⟩
    · exact .inl ⟨_, _, .ldMemVx hbad, rfl⟩
    · refine .inr ⟨ldMemVx_unchangedBut s x _, rfl, .inr ⟨_, _, ?_, rfl⟩⟩
      rw [length_firstV s (by unfold blockCount; omega), blockCount, Config.memSize]
      omega
  case ldVxMem x =>
    rcases execLdVxMem_cases h with ⟨hbad, rfl⟩ | ⟨-, rfl⟩
    · exact .inl ⟨_, _, .ldVxMem hbad, rfl⟩
    · exact .inr ⟨ldVxMem_unchangedBut s x _, by rw [loadBlock_eq]; rfl, .inl (by rw [loadBlock_eq]; rfl)⟩
  case skp x =>
    rcases execSkp_cases h with ⟨hbad, rfl⟩ | ⟨k, -, rfl⟩
    · exact .inl ⟨_, _, .skp hbad, rfl⟩
    · exact .inr (advance_skipIf_completed rfl rfl)
  case sknp x =>
    rcases execSknp_cases h with ⟨hbad, rfl⟩ | ⟨k, -, rfl⟩
    · exact .inl ⟨_, _, .sknp hbad, rfl⟩
    · exact .inr (advance_skipIf_completed rfl rfl)
  case ldVxK x =>
    rcases execLdVxK_cases h with ⟨-, rfl⟩ | ⟨k, -, -, rfl⟩
    · exact .inr ⟨(advance_onlyChanges s .none).of_subset (by simp), .inl (BitVec.add_zero s.pc), .inl rfl⟩
    · exact .inr ⟨(setV_onlyChanges s x _).trans (advance_onlyChanges _ .next), .inr rfl, .inl rfl⟩
  -- the handlers that are one `complete`
  all_goals obtain rfl := Host.Outcome.next.inj h
  case cls => exact .inr ⟨cls_unchangedBut s _ _, rfl, .inl rfl⟩
  case seImm | sneImm | seReg | sneReg => exact .inr (advance_skipIf_completed rfl rfl)
  case ldImm | addImm | ldReg | orReg | andReg | xorReg | ldVxDt =>
    exact .inr ⟨(setV_onlyChanges s _ _).trans (advance_onlyChanges _ .next), rfl, .inl rfl⟩
  case addReg | sub | subn | shr | shl =>
    exact .inr ⟨(setFlagThenV_onlyChanges s _ _ _).trans (advance_onlyChanges _ .next), rfl, .inl rfl⟩
  case rnd =>
    exact .inr
      ⟨(draw_onlyChanges s).trans ((setV_onlyChanges _ _ _).trans (advance_onlyChanges _ .next)), rfl, .inl rfl⟩
  case ldI | addI | ldF => exact .inr ⟨(setI_onlyChanges s _).trans (advance_onlyChanges _ .next), rfl, .inl rfl⟩
  case ldDtVx => exact .inr ⟨(setDt_onlyChanges s _).trans (advance_onlyChanges _ .next), rfl, .inl rfl⟩
  case ldStVx => exact .inr ⟨(setSt_onlyChanges s _).trans (advance_onlyChanges _ .next), rfl, .inl rfl⟩

/-! ### Which instructions may change a part -/

section
variable {s : State} {i : Instr}

theorem not_footprint_status : ¬ footprint s i .status := by
  cases i <;> simp [footprint]

theorem not_footprint_fault : ¬ footprint s i .fault := by
  cases i <;> simp [footprint]

theorem not_footprint_key (k : Key) : ¬ footprint s i (.key k) := by
  cases i <;> simp [footprint]

theorem footprint_sp (h : footprint s i .sp) : i = .ret ∨ ∃ nnn, i = .call nnn := by
  cases i <;> simp [footprint] at h ⊢

theorem footprint_stack {j : Fin 16} (h : footprint s i (.stack j)) : ∃ nnn, i = .call nnn := by
  cases i <;> simp [footprint] at h ⊢

theorem footprint_drawFlag (h : footprint s i .drawFlag) : i = .cls ∨ ∃ x y n, i = .drw x y n := by
  cases i <;> simp [footprint] at h ⊢

theorem footprint_cell {px : Fin 64} {py : Fin 32} (h : footprint s i (.cell px py)) :
    i = .cls ∨ ∃ x y n, i = .drw x y n := by
  cases i <;> simp [footprint] at h ⊢

theorem footprint_dt (h : footprint s i .dt) : ∃ x, i = .ldDtVx x := by
  cases i <;> simp [footprint] at h ⊢

theorem footprint_st (h : footprint s i .st) : ∃ x, i = .ldStVx x := by
  cases i <;> simp [footprint] at h ⊢

theorem footprint_byte {a : Nat} (h : footprint s i (.byte a)) :
    (∃ x, i = .ldB x ∧ indexAddr s ≤ a ∧ a ≤ indexAddr s + 2) ∨
    (∃ x : Reg, i = .ldMemVx x ∧ indexAddr s ≤ a ∧ a ≤ indexAddr s + x.val) := by
  cases i
  case ldB x =>
    simp only [footprint, List.mem_cons, Part.byte.injEq, List.not_mem_nil, reduceCtorEq, or_false] at h
    exact .inl ⟨x, rfl, by omega, by omega⟩
  case ldMemVx x =>
    simp only [footprint, Part.byte.injEq, reduceCtorEq, false_or] at h
    obtain ⟨r, hr, rfl⟩ := h
    exact .inr ⟨x, rfl, by omega, by omega⟩
  all_goals simp [footprint] at h

end

end Sys2Proof.Machine
end


section
/-! PROOFS. The invariant of the machine (spec/40_cycle.md R55, spec/41_control_flow.md R59, spec/60_exceptions.md
R97): the state after reset meets it, and every Step and every host transaction keeps it. -/

namespace Sys2Proof

namespace Machine

/-! ### Fetch and the instruction fetched -/

section
variable {s t : State} {i : Instr}

theorem fetchWord_pc_le {w : Word} (h : s.fetchWord = some w) : s.pc.toNat ≤ 0xFFE := by
  have := (fetchWord_some h).1
  omega

theorem State.Fetches.step_eq (h : s.Fetches i) (hr : s.status = .running) : step s = exec i s := by
  obtain ⟨w, hw, hd⟩ := h
  exact step_of_known hr hw (ne_sentinel_of_decodeWord hd) hd

theorem State.Fetches.pc_le (h : s.Fetches i) : s.pc.toNat ≤ 0xFFE := by
  obtain ⟨w, hw, -⟩ := h
  exact fetchWord_pc_le hw

theorem State.Fetches.wellFormed (h : s.Fetches i) : i.wellFormed = true := by
  obtain ⟨w, -, hd⟩ := h
  exact wellFormed_of_decodeWord hd

/-! ### The PC of a completed instruction -/

theorem toNat_add_two {w : Word} (h : w.toNat ≤ 0xFFE) : (w + 2#16).toNat = w.toNat + 2 := by
  rw [BitVec.toNat_add, BitVec.toNat_ofNat]
  omega

theorem toNat_add_four {w : Word} (h : w.toNat ≤ 0xFFE) : (w + 4#16).toNat = w.toNat + 4 := by
  rw [BitVec.toNat_add, BitVec.toNat_ofNat]
  omega

/-- R55: from an instruction that can be fetched, with every return address in use that of one, PC stays at most
0x1002. -/
theorem NextPc.le {pc : Word} (h : NextPc s i pc) (hpc : s.pc.toNat ≤ 0xFFE)
    (hslots : ∀ j : Fin 16, j.val < s.sp.val → s.stack[j.val].toNat ≤ 0xFFE) : pc.toNat ≤ 0x1002 := by
  have h2 := toNat_add_two hpc
  have h4 := toNat_add_four hpc
  cases i
  case jp | call =>
    obtain ⟨rfl, hle⟩ := h
    omega
  case jpV0 =>
    obtain ⟨heq, hle⟩ := h
    omega
  case ret =>
    obtain ⟨j, hj, rfl⟩ := h
    have hslot := hslots j (by omega)
    rw [toNat_add_two hslot]
    omega
  case seImm | sneImm | seReg | sneReg | skp | sknp =>
    rcases h with rfl | rfl <;> omega
  case ldVxK => rcases h with rfl | rfl <;> omega
  all_goals
    obtain rfl : pc = s.pc + 2#16 := h
    omega

/-! ### The invariant -/

theorem Completed.status_eq (h : Completed s i t) : t.status = s.status := h.frame .status not_footprint_status

theorem Completed.fault_eq (h : Completed s i t) : t.fault = s.fault := h.frame .fault not_footprint_fault

/-- The invariant speaks of memory, PC, the call stack, the status and the fault record alone. -/
theorem inv_of_eq (hs : s.Inv) (hmem : t.mem.wf) (hpc : t.pc = s.pc) (hstack : t.stack = s.stack) (hsp : t.sp = s.sp)
    (hstatus : t.status = s.status) (hfault : t.fault = s.fault) : t.Inv where
  memWf := hmem
  pcBound := hpc ▸ hs.pcBound
  slots := by
    rw [hstack, hsp]
    exact hs.slots
  faultIff := hstatus ▸ hfault ▸ hs.faultIff
  faultPc := by
    rw [hfault, hpc]
    exact hs.faultPc

/-- A RUNNING machine has taken no fault. -/
theorem State.Inv.fault_eq_none (hs : s.Inv) (hr : s.status = .running) : s.fault = none := by
  rw [← Option.not_isSome_iff_eq_none, ← hs.faultIff, hr]
  decide

theorem inv_raise (hs : s.Inv) (k : FaultKind) (w : Option Word) (info : Word) : (s.raise k w info).Inv where
  memWf := hs.memWf
  pcBound := hs.pcBound
  slots := hs.slots
  faultIff := iff_of_true rfl rfl
  faultPc _ hf := Option.some.inj hf ▸ rfl

theorem inv_endRun (hs : s.Inv) (hr : s.status = .running) : s.endRun.Inv where
  memWf := hs.memWf
  pcBound := hs.pcBound
  slots := hs.slots
  faultIff := by simp [hs.fault_eq_none hr]
  faultPc := hs.faultPc

theorem Completed.wf_mem (h : Completed s i t) (hm : s.mem.wf) : t.mem.wf := by
  rcases h.mem with heq | ⟨a, ws, hle, heq⟩ <;> rw [heq]
  · exact hm
  · exact wf_writeBytes hm hle

/-- R59: only CALL puts a return address in use, and it is its own. -/
theorem slots_of_exec (hx : exec i s = .next t) (hpc : s.pc.toNat ≤ 0xFFE)
    (hslots : ∀ j : Fin 16, j.val < s.sp.val → s.stack[j.val].toNat ≤ 0xFFE) :
    ∀ j : Fin 16, j.val < t.sp.val → t.stack[j.val].toNat ≤ 0xFFE := by
  intro j hj
  rcases exec_cases hx with ⟨k, info, -, rfl⟩ | hc
  · exact hslots j hj
  by_cases hsp : footprint s i .sp
  · rcases footprint_sp hsp with rfl | ⟨nnn, rfl⟩
    · rcases execRet_cases hx with ⟨-, rfl⟩ | ⟨top, htop, rfl⟩
      · exact hslots j hj
      · exact hslots j (by change j.val < top.val at hj; omega)
    · rcases execCall_cases hx with ⟨-, rfl⟩ | ⟨-, -, -, rfl⟩ | ⟨-, -, hlt, rfl⟩
      · exact hslots j hj
      · exact hslots j hj
      · show ((s.stack.set s.sp.val s.pc)[j.val]).toNat ≤ 0xFFE
        change j.val < s.sp.val + 1 at hj
        rw [Vector.getElem_set]
        split
        · exact hpc
        · exact hslots j (by omega)
  · have hstack : ¬ footprint s i (.stack j) := fun h => by
      obtain ⟨nnn, rfl⟩ := footprint_stack h
      obtain ⟨k, hk, -⟩ := h
      exact hsp ⟨k, hk, by simp⟩
    have hsame : t.sp = s.sp := hc.frame .sp hsp
    rw [hsame] at hj
    rw [hc.frame (.stack j) hstack]
    exact hslots j hj

theorem inv_step (hs : s.Inv) (h : step s = .next t) : t.Inv := by
  rcases step_cases h with ⟨-, rfl⟩ | ⟨-, -, rfl⟩ | ⟨hr, -, rfl⟩ | ⟨w, -, -, -, -, rfl⟩ | ⟨w, i, hr, hw, -, hx⟩
  · exact hs
  · exact inv_raise hs _ _ _
  · exact inv_endRun hs hr
  · exact inv_raise hs _ _ _
  · rcases exec_cases hx with ⟨k, info, -, rfl⟩ | hc
    · exact inv_raise hs _ _ _
    · have hpc := fetchWord_pc_le hw
      have hfault : t.fault = none := hc.fault_eq.trans (hs.fault_eq_none hr)
      exact {
        memWf := hc.wf_mem hs.memWf
        pcBound := hc.pc.le hpc hs.slots
        slots := slots_of_exec hx hpc hs.slots
        faultIff := by simp [hc.status_eq, hr, hfault]
        faultPc := by simp [hfault] }

theorem inv_reset : State.reset.Inv where
  memWf := wf_nil
  pcBound := by decide
  slots := by simp [State.reset]
  faultIff := by simp [State.reset]
  faultPc := by simp [State.reset]

end

/-- LoadImage writes memory alone. -/
theorem loadImage_eq (s : State) (bytes : List Byte) :
    (s.loadImage bytes).2 = { s with mem := (s.loadImage bytes).2.mem } := by
  unfold State.loadImage
  split <;> rfl

theorem wf_mem_loadImage {s : State} (hm : s.mem.wf) (bytes : List Byte) : (s.loadImage bytes).2.mem.wf := by
  unfold State.loadImage
  split
  · exact hm
  · refine wf_writeBytes hm ?_
    simp only [Config.imageMax, Config.entry, Config.memSize] at *
    omega

theorem inv_transact {x : Transaction} {s t : State} (hs : s.Inv) (h : transact x s = .next t) : t.Inv := by
  cases x
  case step => exact inv_step hs h
  all_goals obtain rfl := Host.Outcome.next.inj h
  case reset => exact inv_of_eq inv_reset inv_reset.memWf rfl rfl rfl rfl rfl
  case loadImage bytes =>
    have hm := wf_mem_loadImage hs.memWf bytes
    rw [loadImage_eq]
    exact inv_of_eq hs hm rfl rfl rfl rfl rfl
  case tick | keyDown | keyUp | clearDrawFlag => exact inv_of_eq hs hs.memWf rfl rfl rfl rfl rfl

end Machine

/-- Settles O18: nothing is listed in memory and no return address is in use. -/
theorem resetMeetsTheInvariant : Obligations.ResetMeetsTheInvariant := by
  unfold Obligations.ResetMeetsTheInvariant
  exact Machine.inv_reset

/-- Settles O19: a Step leaves the state, ends the run, raises an error or completes an instruction, and a completed
instruction keeps memory canonical, PC bounded (`NextPc.le`) and the return addresses those of CALLs
(`slots_of_exec`). -/
theorem stepKeepsTheInvariant : Obligations.StepKeepsTheInvariant := by
  unfold Obligations.StepKeepsTheInvariant
  exact fun _ _ => Machine.inv_step

/-- Settles O20: beside the Step, Reset gives the reset state but for the draws, LoadImage writes inside memory, and
the other transactions write nothing the invariant speaks of. -/
theorem transactionsKeepTheInvariant : Obligations.TransactionsKeepTheInvariant := by
  unfold Obligations.TransactionsKeepTheInvariant
  exact fun _ _ _ => Machine.inv_transact

end Sys2Proof
end


section
/-! PROOFS. The rules of the Step (spec/40_cycle.md, spec/60_exceptions.md): fetch and lookup, the end of a run, the
runtime errors with their causes, how the status moves, and PC after a completed instruction. -/

namespace Sys2Proof

namespace Machine

/-! ### Runtime errors -/

section
variable {s t : State} {i : Instr} {k : FaultKind} {w info : Word}

theorem faults_raise (s : State) (k : FaultKind) (w : Option Word) (info : Word) :
    Faults (.next (s.raise k w info)) s ⟨k, s.pc, w, info⟩ :=
  ⟨_, rfl, rfl, rfl, raise_onlyChanges s k w info⟩

/-- An instruction that raises a runtime error is of neither family that ignores a nibble, so its encoding is the
fetched word (log entry 10). -/
theorem Raises.encode_eq (h : Raises s i k info) (hd : decodeWord w = some i) : encode i = w := by
  apply encode_of_decodeWord hd
  · intro h5
    rw [decodeWord_of_nibble1_eq_5 h5] at hd
    cases hd
    cases h
  · intro h9
    rw [decodeWord_of_nibble1_eq_9 h9] at hd
    cases hd
    cases h

/-- The three ways a Step of a RUNNING machine ends FAULTED. -/
theorem step_faulted_cases (hr : s.status = .running) (h : step s = .next t) (ht : t.status = .faulted) :
    (s.fetchWord = none ∧ t = s.raise .boundsError none s.pc) ∨
    (∃ w, s.fetchWord = some w ∧ w ≠ 0x0000#16 ∧ decodeWord w = none ∧ t = s.raise .unknownOpcode (some w) w) ∨
    (∃ w i k info, s.fetchWord = some w ∧ decodeWord w = some i ∧ Raises s i k info ∧
      t = s.raise k (some w) info) := by
  rcases step_cases h with ⟨hnr, -⟩ | ⟨-, hf, rfl⟩ | ⟨-, -, rfl⟩ | ⟨w, -, hf, h0, hd, rfl⟩ | ⟨w, i, -, hf, hd, hx⟩
  · exact absurd hr hnr
  · exact .inl ⟨hf, rfl⟩
  · cases ht
  · exact .inr (.inl ⟨w, hf, h0, hd, rfl⟩)
  · rcases exec_cases hx with ⟨k, info, hk, rfl⟩ | hc
    · exact .inr (.inr ⟨w, i, k, info, hf, hd, hk, by rw [hk.encode_eq hd]⟩)
    · rw [hc.status_eq, hr] at ht
      cases ht

/-- The exact sum of V0 and a 12-bit address fits 16 bits. -/
theorem toNat_offsetTarget {nnn : Word} (h : nnn.toNat ≤ 0xFFF) :
    (BitVec.ofNat 16 (offsetTarget s nnn)).toNat = (s.readV 0).toNat + nnn.toNat := by
  have := (s.readV 0).isLt
  rw [BitVec.toNat_ofNat, offsetTarget]
  omega

theorem toNat_zeroExtend_byte (b : Byte) : (b.zeroExtend 16 : Word).toNat = b.toNat :=
  BitVec.toNat_setWidth_of_le (by decide)

end

/-! ### Fetch -/

/-- The word of two bytes decodes where the bytes do, and `step` runs what it decodes to. -/
theorem step_of_decode {s : State} {i : Instr} {rest : List Byte} (hr : s.status = .running) (hpc : s.pc.toNat ≤ 0xFFE)
    (h : decode (s.mem.read s.pc.toNat :: s.mem.read (s.pc.toNat + 1) :: rest) = .ok (i, rest)) : step s = exec i s :=
  State.Fetches.step_eq ⟨_, fetchWord_of_le (by omega), decodeWord_of_decode h⟩ hr

theorem step_of_runOver {s : State} (h : s.runOver) : step s = .next s := by
  apply step_of_not_running
  rcases h with h | h <;> rw [h] <;> decide

end Machine

open Machine

/-- Settles O7: the two bytes are the fetched word. -/
theorem stepRunsTheDecodedInstruction : Obligations.StepRunsTheDecodedInstruction := by
  unfold Obligations.StepRunsTheDecodedInstruction
  exact fun _ _ => step_of_decode

/-- Settles O8: the word read big-endian is the fetched one, and it decodes or does not. -/
theorem handlerLookupOrUnknownOpcode : Obligations.HandlerLookupOrUnknownOpcode := by
  unfold Obligations.HandlerLookupOrUnknownOpcode
  intro s w hr hpc hw h0
  have hf : s.fetchWord = some w := by
    rw [fetchWord_of_le (by omega), Option.some_inj, ← BitVec.toNat_inj, wordOfBytes_toNat, hw]
  refine ⟨fun i hd => step_of_known hr hf h0 hd, fun hd => ?_⟩
  rw [step_of_unknown hr hf h0 hd]
  exact faults_raise ..

/-- Settles O9: there is no word to fetch. -/
theorem fetchBeyondMemoryRaisesBoundsError : Obligations.FetchBeyondMemoryRaisesBoundsError := by
  unfold Obligations.FetchBeyondMemoryRaisesBoundsError
  intro s hr hpc
  rw [step_of_fetch_none hr (fetchWord_of_gt (by omega))]
  exact faults_raise ..

/-- Settles O10: two zero bytes are the sentinel. -/
theorem zeroWordEndsTheRun : Obligations.ZeroWordEndsTheRun := by
  unfold Obligations.ZeroWordEndsTheRun
  intro s hr hpc hhi hlo
  have hf : s.fetchWord = some 0x0000#16 := by
    rw [fetchWord_of_le (by omega), hhi, hlo]
    rfl
  exact ⟨_, step_of_sentinel hr hf, rfl, endRun_onlyChanges s⟩

/-- Settles O11: the Step of a machine that is not RUNNING is the identity. -/
theorem terminalStatesStay : Obligations.TerminalStatesStay := by
  unfold Obligations.TerminalStatesStay
  exact fun _ => step_of_runOver

/-- Settles O12: `exec_answers` over the instructions, and the Step is one of them or one write of its own. -/
theorem everyStepAnswersANextState : Obligations.EveryStepAnswersANextState := by
  unfold Obligations.EveryStepAnswersANextState
  exact ⟨step_answers, exec_answers⟩

/-- Settles O13: by the cases of a Step and of an instruction; the other transactions do not write the status. -/
theorem statusMovesOnlyAsListed : Obligations.StatusMovesOnlyAsListed := by
  unfold Obligations.StatusMovesOnlyAsListed
  refine ⟨fun s => rfl, fun s t hr h => ⟨fun hf => ?_, fun hf => ?_⟩, fun s => step_of_runOver, ?_⟩
  · rw [step_of_sentinel hr hf] at h
    cases h
    rfl
  · rcases step_cases h with ⟨hnr, -⟩ | ⟨-, -, rfl⟩ | ⟨-, hf0, -⟩ | ⟨w, -, -, -, -, rfl⟩ | ⟨w, i, -, -, -, hx⟩
    · exact absurd hr hnr
    · exact .inl ⟨rfl, _, rfl, rfl⟩
    · exact absurd hf0 hf
    · exact .inl ⟨rfl, _, rfl, rfl⟩
    · rcases exec_cases hx with ⟨k, info, -, rfl⟩ | hc
      · exact .inl ⟨rfl, _, rfl, rfl⟩
      · exact .inr ⟨hc.status_eq.trans hr, hc.fault_eq⟩
  · intro x s t hreset hstep h
    cases x
    case reset => exact absurd rfl hreset
    case step => exact absurd rfl hstep
    all_goals obtain rfl := Host.Outcome.next.inj h
    case loadImage => rw [loadImage_eq]
    all_goals rfl

/-- Settles O14: each of the three ways to fault (`step_faulted_cases`) records PC and the fetched word and writes
nothing else. -/
theorem runtimeErrorsArePrecise : Obligations.RuntimeErrorsArePrecise := by
  unfold Obligations.RuntimeErrorsArePrecise
  intro s t hr h ht
  rcases step_faulted_cases hr h ht with ⟨hf, rfl⟩ | ⟨w, hf, -, -, rfl⟩ | ⟨w, i, k, info, hf, -, -, rfl⟩
  all_goals exact ⟨raise_onlyChanges _ _ _ _, _, rfl, rfl, hf.symm⟩

/-- Settles O15: the kind of the record leaves only its own causes among the three ways to fault and the cases of
`Raises`. -/
theorem eachFaultKindHasItsCause : Obligations.EachFaultKindHasItsCause := by
  unfold Obligations.EachFaultKindHasItsCause
  intro s t f hr h ht htf
  rcases step_faulted_cases hr h ht with ⟨hf, rfl⟩ | ⟨w, hf, h0, hd, rfl⟩ | ⟨w, i, k, info, hf, hd, hk, rfl⟩
  · cases htf
    exact .inl ⟨hf, rfl⟩
  · cases htf
    exact ⟨hf, h0, hd⟩
  · cases htf
    have hi : s.Fetches i := ⟨w, hf, hd⟩
    have hwf := hi.wellFormed
    cases hk with
    | ret hsp => exact ⟨hi, hsp, rfl⟩
    | callFull hge hsp => exact ⟨⟨_, hi, hge⟩, hsp, rfl⟩
    | jp hbad =>
      have := (addrFits_iff _).1 hwf
      exact .inl ⟨_, .inl hi, by omega, rfl⟩
    | callTarget hbad =>
      have := (addrFits_iff _).1 hwf
      exact .inl ⟨_, .inr hi, by omega, rfl⟩
    | @jpV0 nnn hbad =>
      have hsum := toNat_offsetTarget (s := s) ((addrFits_iff nnn).1 hwf)
      refine .inr ⟨nnn, hi, hsum, ?_⟩
      simp only [hsum]
      rw [offsetTarget] at hbad
      omega
    | drw hn hbad => exact .inr (.inl ⟨_, _, _, hi, hn, hbad, rfl⟩)
    | ldB hbad => exact .inr (.inr (.inl ⟨_, hi, hbad, rfl⟩))
    | ldMemVx hbad => exact .inr (.inr (.inr (.inl ⟨_, .inl hi, hbad, rfl⟩)))
    | ldVxMem hbad => exact .inr (.inr (.inr (.inl ⟨_, .inr hi, hbad, rfl⟩)))
    | skp hbad => exact .inr (.inr (.inr (.inr ⟨_, .inl hi, hbad, toNat_zeroExtend_byte _⟩)))
    | sknp hbad => exact .inr (.inr (.inr (.inr ⟨_, .inr hi, hbad, toNat_zeroExtend_byte _⟩)))

/-- Settles O16: a machine still RUNNING has completed the instruction, so PC is that of `NextPc`, and no sum wraps
where a word can be fetched. -/
theorem pcAfterACompletedStep : Obligations.PcAfterACompletedStep := by
  unfold Obligations.PcAfterACompletedStep
  intro s t i hr hi h ht
  rw [hi.step_eq hr] at h
  have h2 := toNat_add_two hi.pc_le
  have h4 := toNat_add_four hi.pc_le
  rcases exec_cases h with ⟨k, info, -, rfl⟩ | hc
  · cases ht
  have hpc := hc.pc
  cases i
  case jp | call | jpV0 => exact hpc.1
  case ret => exact hpc
  case seImm | sneImm | seReg | sneReg | skp | sknp =>
    exact hpc.imp (fun h => by rw [h, h2]) (fun h => by rw [h, h4])
  case ldVxK => exact hpc.imp_right fun h => by rw [h, h2]
  all_goals exact (congrArg BitVec.toNat hpc).trans h2

end Sys2Proof
end


section
/-! PROOFS. Which instruction a change of a part comes from (spec/10_state.md sections 1 and 4 to 7, spec/20_memory.md
section 1): a Step that changes a part other than the status and the fault record runs an instruction with that part in
its footprint. -/

namespace Sys2Proof

namespace Machine

theorem Part.same_refl (s : State) (p : Part) : Part.same s s p := by
  cases p <;> rfl

section
variable {s t : State} {p : Part}

/-- Where a changed part comes from. -/
theorem step_changed_cases (h : step s = .next t) (hp : ¬ Part.same s t p) (hpf : p ∉ [.status, .fault]) :
    s.status = .running ∧ ∃ i, s.Fetches i ∧ exec i s = .next t ∧ footprint s i p := by
  rcases step_cases h with ⟨-, rfl⟩ | ⟨-, -, rfl⟩ | ⟨-, -, rfl⟩ | ⟨w, -, -, -, -, rfl⟩ | ⟨w, i, hr, hf, hd, hx⟩
  · exact absurd (Part.same_refl _ p) hp
  · exact absurd (raise_onlyChanges _ _ _ _ p hpf) hp
  · exact absurd (endRun_onlyChanges s p fun h => hpf (List.mem_append_left [Part.fault] h)) hp
  · exact absurd (raise_onlyChanges _ _ _ _ p hpf) hp
  · refine ⟨hr, i, ⟨w, hf, hd⟩, hx, ?_⟩
    rcases exec_cases hx with ⟨k, info, -, rfl⟩ | hc
    · exact absurd (raise_onlyChanges _ _ _ _ p hpf) hp
    · by_contra hfp
      exact hp (hc.frame p hfp)

/-- A part that no instruction has in its footprint stays as it is. -/
theorem step_same_of_not_footprint (h : step s = .next t) (hpf : p ∉ [.status, .fault])
    (hnf : ∀ i, ¬ footprint s i p) : Part.same s t p := by
  by_contra hp
  obtain ⟨-, i, -, -, hfp⟩ := step_changed_cases h hp hpf
  exact hnf i hfp

theorem step_changed_stack (h : step s = .next t)
    (hchg : t.sp ≠ s.sp ∨ ∃ j : Fin 16, t.stack[j.val] ≠ s.stack[j.val]) :
    s.status = .running ∧ ∃ i, s.Fetches i ∧ exec i s = .next t ∧ (i = .ret ∨ ∃ nnn, i = .call nnn) := by
  rcases hchg with hsp | ⟨j, hj⟩
  · obtain ⟨hr, i, hi, hx, hfp⟩ := step_changed_cases (p := .sp) h hsp (by decide)
    exact ⟨hr, i, hi, hx, footprint_sp hfp⟩
  · obtain ⟨hr, i, hi, hx, hfp⟩ := step_changed_cases (p := .stack j) h hj (by simp)
    exact ⟨hr, i, hi, hx, .inr (footprint_stack hfp)⟩

theorem exists_cell_ne {f g : Framebuffer} (h : f ≠ g) :
    ∃ (px : Fin 64) (py : Fin 32), f.cell px.val py.val ≠ g.cell px.val py.val := by
  by_contra hall
  push Not at hall
  exact h (fb_ext hall)

/-- A key written with the value it has. -/
theorem setKey_of_eq {k : Key} {b : Bool} (h : s.keyPressed k = b) : s.setKey k b = s := by
  subst h
  simp [State.setKey, State.keyPressed]

end

end Machine

open Machine

/-- Settles O47: SP and the slots are in the footprints of CALL and RET alone, and neither changes them where it
raises an error. -/
theorem onlyCallAndRetTouchTheStack : Obligations.OnlyCallAndRetTouchTheStack := by
  unfold Obligations.OnlyCallAndRetTouchTheStack
  intro s t h hchg
  obtain ⟨hr, i, hi, hx, rfl | ⟨nnn, rfl⟩⟩ := step_changed_stack h hchg
  · rcases execRet_cases hx with ⟨-, rfl⟩ | ⟨j, hj, rfl⟩
    · simp at hchg
    · exact ⟨hr, .inr ⟨hi, hj, rfl⟩⟩
  · rcases execCall_cases hx with ⟨-, rfl⟩ | ⟨-, -, -, rfl⟩ | ⟨-, -, hlt, rfl⟩
    · simp at hchg
    · simp at hchg
    · exact ⟨hr, .inl ⟨nnn, hi, rfl, fun j hj => Vector.getElem_set_ne hlt j.isLt (Ne.symm hj)⟩⟩

/-- Settles O48: the cells and the draw flag are in the footprints of CLS and DRW alone; CLS sets the flag, and DRW
ORs into it. -/
theorem onlyClsAndDrwTouchTheScreen : Obligations.OnlyClsAndDrwTouchTheScreen := by
  unfold Obligations.OnlyClsAndDrwTouchTheScreen
  intro s t h
  refine ⟨fun hchg => ?_, fun hset => ?_⟩
  · have hi : ∃ i, s.Fetches i ∧ (i = .cls ∨ ∃ x y n, i = .drw x y n) := by
      rcases hchg with hfb | hd
      · obtain ⟨px, py, hcell⟩ := exists_cell_ne hfb
        obtain ⟨-, i, hi, -, hfp⟩ := step_changed_cases (p := .cell px py) h hcell (by simp)
        exact ⟨i, hi, footprint_cell hfp⟩
      · obtain ⟨-, i, hi, -, hfp⟩ := step_changed_cases (p := .drawFlag) h hd (by decide)
        exact ⟨i, hi, footprint_drawFlag hfp⟩
    obtain ⟨i, hi, rfl | ⟨x, y, n, rfl⟩⟩ := hi
    · exact .inl hi
    · exact .inr ⟨x, y, n, hi⟩
  · by_contra hclear
    have hd : t.drawFlag ≠ s.drawFlag := fun heq => hclear (heq.trans hset)
    obtain ⟨-, i, -, hx, hfp⟩ := step_changed_cases (p := .drawFlag) h hd (by decide)
    rcases footprint_drawFlag hfp with rfl | ⟨x, y, n, rfl⟩
    · cases hx
      exact hclear rfl
    · rcases execDrw_cases hx with ⟨-, -, rfl⟩ | ⟨-, b, -, rfl⟩
      · exact hclear hset
      · exact hclear (by simp [State.setScreen, hset])

/-- Settles O49: VF is in the footprint of the flag writers and of the instructions whose destination is VF, and in no
other. -/
theorem vfIsWrittenOnlyAsFlagOrDestination : Obligations.VfIsWrittenOnlyAsFlagOrDestination := by
  unfold Obligations.VfIsWrittenOnlyAsFlagOrDestination
  intro s t h hchg
  obtain ⟨-, i, hi, -, hfp⟩ := step_changed_cases (p := .v vf) h hchg (by decide)
  cases i
  case addReg x y => exact .inl ⟨x, y, .inl hi⟩
  case sub x y => exact .inl ⟨x, y, .inr (.inl hi)⟩
  case subn x y => exact .inl ⟨x, y, .inr (.inr (.inl hi))⟩
  case shr x y => exact .inl ⟨x, y, .inr (.inr (.inr (.inl hi)))⟩
  case shl x y => exact .inl ⟨x, y, .inr (.inr (.inr (.inr (.inl hi))))⟩
  case drw x y n => exact .inl ⟨x, y, .inr (.inr (.inr (.inr (.inr ⟨n, hi⟩))))⟩
  all_goals simp [footprint] at hfp
  case ldVxMem x =>
    obtain rfl : x = vf := le_antisymm (Fin.le_last x) hfp
    exact .inr (.inr (.inr (.inr (.inr hi))))
  all_goals subst hfp
  case ldImm kk => exact .inr (.inl ⟨kk, .inl hi⟩)
  case addImm kk => exact .inr (.inl ⟨kk, .inr (.inl hi)⟩)
  case rnd kk => exact .inr (.inl ⟨kk, .inr (.inr hi)⟩)
  case ldReg y => exact .inr (.inr (.inl ⟨y, .inl hi⟩))
  case orReg y => exact .inr (.inr (.inl ⟨y, .inr (.inl hi)⟩))
  case andReg y => exact .inr (.inr (.inl ⟨y, .inr (.inr (.inl hi))⟩))
  case xorReg y => exact .inr (.inr (.inl ⟨y, .inr (.inr (.inr hi))⟩))
  case ldVxDt => exact .inr (.inr (.inr (.inl hi)))
  case ldVxK => exact .inr (.inr (.inr (.inr (.inl hi))))

/-- Settles O50: bytes are in the footprints of LD B and LD [I] alone. -/
theorem onlyStoresWriteMemory : Obligations.OnlyStoresWriteMemory := by
  unfold Obligations.OnlyStoresWriteMemory
  intro s t a h hchg
  obtain ⟨-, i, hi, -, hfp⟩ := step_changed_cases (p := .byte a) h hchg (by simp)
  rcases footprint_byte hfp with ⟨x, rfl, hrange⟩ | ⟨x, rfl, hrange⟩
  · exact .inl ⟨x, hi, hrange⟩
  · exact .inr ⟨x, hi, hrange⟩

/-- Settles O51: each timer is in the footprint of its load alone. -/
theorem onlyTimerLoadsWriteTheTimers : Obligations.OnlyTimerLoadsWriteTheTimers := by
  unfold Obligations.OnlyTimerLoadsWriteTheTimers
  intro s t h
  refine ⟨fun hchg => ?_, fun hchg => ?_⟩
  · obtain ⟨-, i, hi, hx, hfp⟩ := step_changed_cases (p := .dt) h hchg (by decide)
    obtain ⟨x, rfl⟩ := footprint_dt hfp
    cases hx
    exact ⟨x, hi, rfl⟩
  · obtain ⟨-, i, hi, hx, hfp⟩ := step_changed_cases (p := .st) h hchg (by decide)
    obtain ⟨x, rfl⟩ := footprint_st hfp
    cases hx
    exact ⟨x, hi, rfl⟩

/-- Settles O52: no footprint holds a key, and the key transactions are one write of a key. -/
theorem keysAreWrittenByTheHostAlone : Obligations.KeysAreWrittenByTheHostAlone := by
  unfold Obligations.KeysAreWrittenByTheHostAlone
  have hstep : ∀ s t : State, step s = .next t → ∀ k : Key, t.keyPressed k = s.keyPressed k := fun s t h k =>
    step_same_of_not_footprint (p := .key k) h (by simp) fun _ => not_footprint_key k
  refine ⟨hstep, fun s k => ⟨⟨_, rfl, ?_, setKey_onlyChanges s k true⟩, ⟨_, rfl, ?_, setKey_onlyChanges s k false⟩,
    fun hk => ?_, fun hk => ?_⟩, ?_⟩
  · exact (keyPressed_setKey s k k true).trans (if_pos rfl)
  · exact (keyPressed_setKey s k k false).trans (if_pos rfl)
  · exact congrArg Host.Outcome.next (setKey_of_eq hk)
  · exact congrArg Host.Outcome.next (setKey_of_eq hk)
  · intro x s t hreset hkey h k
    cases x
    case reset => exact absurd rfl hreset
    case step => exact hstep s t h k
    case keyDown q => exact absurd rfl (hkey q).1
    case keyUp q => exact absurd rfl (hkey q).2
    all_goals obtain rfl := Host.Outcome.next.inj h
    case loadImage => rw [loadImage_eq]; rfl
    all_goals rfl

end Sys2Proof
end


section
/-! PROOFS. The ALU instructions that write a flag, and RND (spec/42_alu.md R74 to R79): the values of the flags as
numbers, and the one shape of the handlers. -/

namespace Sys2Proof

namespace Machine

/-! ### The values of the flags and of the shifts -/

theorem toNat_boolByte (p : Prop) [Decidable p] : (boolByte (decide p)).toNat = if p then 1 else 0 := by
  by_cases h : p <;> simp [boolByte, h]

theorem toNat_carryFlag (a b : Byte) : (carryFlag a b).toNat = if a.toNat + b.toNat > 255 then 1 else 0 :=
  toNat_boolByte _

theorem toNat_notBorrowFlag (a b : Byte) : (notBorrowFlag a b).toNat = if a.toNat ≥ b.toNat then 1 else 0 :=
  toNat_boolByte _

theorem toNat_shiftedOutRight (a : Byte) : (shiftedOutRight a).toNat = a.toNat % 2 := by
  rw [shiftedOutRight, BitVec.toNat_and]
  exact Nat.and_one_is_mod a.toNat

theorem toNat_shiftedOutLeft (a : Byte) : (shiftedOutLeft a).toNat = a.toNat / 128 := by
  have hand : (shiftedOutLeft a).toNat = a.toNat >>> 7 % 2 := by
    rw [shiftedOutLeft, BitVec.toNat_and, BitVec.toNat_ushiftRight]
    exact Nat.and_one_is_mod _
  have := a.isLt
  rw [hand, Nat.shiftRight_eq_div_pow]
  omega

theorem toNat_shiftRight_one (a : Byte) : (a >>> 1).toNat = a.toNat / 2 := by
  rw [BitVec.toNat_ushiftRight, Nat.shiftRight_eq_div_pow]

theorem toNat_shiftLeft_one (a : Byte) : (a <<< 1).toNat = a.toNat * 2 % 256 := by
  rw [BitVec.toNat_shiftLeft, Nat.shiftLeft_eq]

theorem toNat_sub_byte (a b : Byte) : (a - b).toNat = (a.toNat + 256 - b.toNat) % 256 := by
  have := b.isLt
  rw [BitVec.toNat_sub]
  congr 1
  omega

/-! ### The handlers -/

/-- A handler that writes the flag `f` to VF, then `b` to Vx, and signals NEXT: for x = 0xF the result stands (R15,
decision D9). -/
theorem completes_setFlagThenV_next (s : State) (f : Byte) (x : Reg) (b : Byte) :
    Completes (complete .next (s.setFlagThenV f x b)) fun t =>
      t.readV x = b ∧ (x ≠ vf → t.readV vf = f) ∧ t.pc = s.pc + 2#16 ∧ OnlyChanges [.v x, .v vf, .pc] s t := by
  refine ⟨_, complete_eq .., ?_, fun hx => ?_, rfl, ?_⟩
  · exact (readV_setFlagThenV s f x x b).trans (if_pos rfl)
  · exact (readV_setFlagThenV s f x vf b).trans ((if_neg hx.symm).trans (if_pos rfl))
  · exact ((setFlagThenV_onlyChanges s f x b).trans (advance_onlyChanges _ .next)).of_subset (by simp)

/-- R79: a handler that takes a draw, writes its masked value to Vx and signals NEXT. -/
theorem completes_draw_setV_next (s : State) (x : Reg) (b : Byte) :
    Completes (complete .next (s.draw.2.setV x b)) fun t =>
      t.readV x = b ∧ t.drawCount = s.drawCount + 1 ∧ t.pc = s.pc + 2#16 ∧ OnlyChanges [.v x, .pc, .draws] s t := by
  refine ⟨_, complete_eq .., readV_setV_self _ x b, rfl, rfl, ?_⟩
  have hframe := (draw_onlyChanges s).trans ((setV_onlyChanges _ x b).trans (advance_onlyChanges _ .next))
  exact hframe.of_subset (by simp)

end Machine

open Machine

/-- Settles O24: one flag write and one result write, the byte sum being the sum mod 256. -/
theorem addSetsCarry : Obligations.AddSetsCarry := by
  unfold Obligations.AddSetsCarry
  intro s x y
  refine ⟨(decodeWord_ofNat_8 x y 0x4#4).trans (decode8_wordXYN_4 x y),
    (completes_setFlagThenV_next s (carryFlag (s.readV x) (s.readV y)) x (s.readV x + s.readV y)).imp
      fun t ⟨hvx, hvf, hrest⟩ => ⟨?_, fun hx => ?_, hrest⟩⟩
  · rw [hvx, BitVec.toNat_add]
  · rw [hvf hx, toNat_carryFlag]

/-- Settles O25: one flag write and one result write, with the minuend and subtrahend of each instruction. -/
theorem subtractSetsNotBorrow : Obligations.SubtractSetsNotBorrow := by
  unfold Obligations.SubtractSetsNotBorrow
  intro s x y
  refine ⟨⟨(decodeWord_ofNat_8 x y 0x5#4).trans (decode8_wordXYN_5 x y),
      (completes_setFlagThenV_next s (notBorrowFlag (s.readV x) (s.readV y)) x (s.readV x - s.readV y)).imp
        fun t ⟨hvx, hvf, hrest⟩ => ⟨?_, fun hx => ?_, hrest⟩⟩,
    ⟨(decodeWord_ofNat_8 x y 0x7#4).trans (decode8_wordXYN_7 x y),
      (completes_setFlagThenV_next s (notBorrowFlag (s.readV y) (s.readV x)) x (s.readV y - s.readV x)).imp
        fun t ⟨hvx, hvf, hrest⟩ => ⟨?_, fun hx => ?_, hrest⟩⟩⟩
  · rw [hvx, toNat_sub_byte]
  · rw [hvf hx, toNat_notBorrowFlag]
  · rw [hvx, toNat_sub_byte]
  · rw [hvf hx, toNat_notBorrowFlag]

/-- Settles O26: one flag write and one result write, of the old Vx alone. -/
theorem shiftsMoveOneBitOut : Obligations.ShiftsMoveOneBitOut := by
  unfold Obligations.ShiftsMoveOneBitOut
  intro s x y
  refine ⟨⟨(decodeWord_ofNat_8 x y 0x6#4).trans (decode8_wordXYN_6 x y),
      (completes_setFlagThenV_next s (shiftedOutRight (s.readV x)) x (s.readV x >>> 1)).imp
        fun t ⟨hvx, hvf, hrest⟩ => ⟨?_, fun hx => ?_, hrest⟩⟩,
    ⟨(decodeWord_ofNat_8 x y 0xE#4).trans (decode8_wordXYN_E x y),
      (completes_setFlagThenV_next s (shiftedOutLeft (s.readV x)) x (s.readV x <<< 1)).imp
        fun t ⟨hvx, hvf, hrest⟩ => ⟨?_, fun hx => ?_, hrest⟩⟩⟩
  · rw [hvx, toNat_shiftRight_one]
  · rw [hvf hx, toNat_shiftedOutRight]
  · rw [hvx, toNat_shiftLeft_one]
  · rw [hvf hx, toNat_shiftedOutLeft]

/-- Settles O27: a bit of the masked draw is the AND of the two bits, whatever the draw is. -/
theorem randomMasksAFreeDraw : Obligations.RandomMasksAFreeDraw := by
  unfold Obligations.RandomMasksAFreeDraw
  intro s x kk
  refine ⟨(congrArg decodeWord (ofNat_eq_wordXKK 0xC#4 x kk)).trans (decodeWord_wordXKK_C x kk),
    (completes_draw_setV_next s x (Config.randomDraw s.drawCount &&& kk)).imp fun t ⟨hvx, hrest⟩ =>
      ⟨hvx, fun b _ hb => ?_, hrest⟩⟩
  rw [hvx, BitVec.getLsbD_and, hb, Bool.and_false]

end Sys2Proof
end


section
/-! PROOFS. Control flow with a checked target or the call stack (spec/41_control_flow.md R58 to R61, R66). -/

namespace Sys2Proof

namespace Machine

/-- An instruction whose only answer is a runtime error. -/
theorem faults_exec {i : Instr} {s : State} {k : FaultKind} {info : Word}
    (h : ∀ t, exec i s = .next t → t = s.raise k (some (encode i)) info) :
    Faults (exec i s) s ⟨k, s.pc, some (encode i), info⟩ :=
  completes_exec fun t ht => h t ht ▸ ⟨rfl, rfl, raise_onlyChanges _ _ _ _⟩

/-- R58: a target in range becomes PC. -/
theorem completes_jumpTo (i : Instr) (s : State) {n : Nat} (h : 0x200 ≤ n ∧ n ≤ 0xFFF) :
    Completes (jumpTo i n s) fun t => t.pc = BitVec.ofNat 16 n ∧ OnlyChanges [.pc] s t := by
  rw [jumpTo, if_pos ((targetOk_iff n).2 h)]
  exact ⟨_, complete_eq .., jump_pc s _, jump_onlyChanges s _⟩

/-- R58: a target out of range raises AddressError. -/
theorem faults_jumpTo (i : Instr) (s : State) {n : Nat} (h : n < 0x200 ∨ 0xFFF < n) :
    Faults (jumpTo i n s) s ⟨.addressError, s.pc, some (encode i), BitVec.ofNat 16 n⟩ := by
  have hbad : ¬ targetOk n = true := by
    rw [targetOk_iff]
    omega
  rw [jumpTo, if_neg hbad]
  exact faults_raise ..

section
variable {s : State} {nnn : Word}

/-- R61: CALL with a free slot. -/
theorem completes_call {j : Fin 16} (hj : j.val = s.sp.val) (h : 0x200 ≤ nnn.toNat ∧ nnn.toNat ≤ 0xFFF) :
    Completes (exec (.call nnn) s) fun t =>
      t.stack = s.stack.set j.val s.pc ∧ t.sp.val = s.sp.val + 1 ∧ t.pc = nnn ∧
      OnlyChanges [.stack j, .sp, .pc] s t := by
  refine completes_exec fun t ht => ?_
  rcases execCall_cases ht with ⟨hbad, -⟩ | ⟨-, -, hsp, -⟩ | ⟨-, -, hlt, rfl⟩
  · exact absurd h hbad
  · omega
  · obtain rfl : j = ⟨s.sp.val, hlt⟩ := Fin.ext hj
    exact ⟨rfl, rfl, jump_pc _ nnn, call_onlyChanges s _ _ _ _⟩

/-- R59: RET with a slot in use. -/
theorem completes_ret {j : Fin 16} (hj : j.val + 1 = s.sp.val) :
    Completes (exec .ret s) fun t =>
      t.sp.val = j.val ∧ t.pc = s.stack[j.val] + 2#16 ∧ OnlyChanges [.sp, .pc] s t := by
  refine completes_exec fun t ht => ?_
  rcases execRet_cases ht with ⟨h0, -⟩ | ⟨k, hk, rfl⟩
  · omega
  · obtain rfl : j = k := Fin.ext (by omega)
    exact ⟨rfl, rfl, ret_onlyChanges s _ _⟩

end

end Machine

open Machine

/-- Settles O29: `completes_jumpTo` and `faults_jumpTo` at the address field. -/
theorem jumpSetsPcOrRaisesAddressError : Obligations.JumpSetsPcOrRaisesAddressError := by
  unfold Obligations.JumpSetsPcOrRaisesAddressError
  intro s nnn
  refine ⟨fun hfit => (congrArg decodeWord (ofNat_eq_wordNNN 0x1#4 hfit)).trans (decodeWord_wordNNN_1 hfit),
    fun h => ?_, fun h => ?_⟩
  · have hjump := completes_jumpTo (.jp nnn) s h
    rwa [← directTarget, ofNat_directTarget] at hjump
  · have hfault := faults_jumpTo (.jp nnn) s h
    rwa [← directTarget, ofNat_directTarget] at hfault

/-- Settles O30: by the cases of CALL, the target checked before the stack. -/
theorem callPushesItsOwnAddress : Obligations.CallPushesItsOwnAddress := by
  unfold Obligations.CallPushesItsOwnAddress
  intro s nnn
  refine ⟨fun hfit => (congrArg decodeWord (ofNat_eq_wordNNN 0x2#4 hfit)).trans (decodeWord_wordNNN_2 hfit),
    fun j hj hge hle => (completes_call hj ⟨hge, hle⟩).imp fun t ⟨hstack, hrest⟩ => ⟨?_, hrest⟩,
    fun hbad => faults_exec fun t ht => ?_, fun ⟨hge, hle, hsp⟩ => faults_exec fun t ht => ?_⟩
  · simp [hstack]
  · rcases execCall_cases ht with ⟨-, rfl⟩ | ⟨hge, hle, -⟩ | ⟨hge, hle, -⟩
    · rfl
    all_goals omega
  · rcases execCall_cases ht with ⟨hbad, -⟩ | ⟨-, -, -, rfl⟩ | ⟨-, -, hlt, -⟩
    · exact absurd ⟨hge, hle⟩ hbad
    · rfl
    · omega

/-- Settles O31: by the cases of RET. -/
theorem returnPopsAndAdvances : Obligations.ReturnPopsAndAdvances := by
  unfold Obligations.ReturnPopsAndAdvances
  refine fun s => ⟨decodeWord_encode (i := .ret) rfl, fun j hj => completes_ret hj,
    fun hsp => faults_exec fun t ht => ?_⟩
  rcases execRet_cases ht with ⟨-, rfl⟩ | ⟨j, hj, -⟩
  · rfl
  · omega

/-- Settles O32: `completes_jumpTo` and `faults_jumpTo` at the sum, which 16 bits hold exactly. -/
theorem jumpOffsetChecksTheExactSum : Obligations.JumpOffsetChecksTheExactSum := by
  unfold Obligations.JumpOffsetChecksTheExactSum
  intro s nnn hfit
  refine ⟨(congrArg decodeWord (ofNat_eq_wordNNN 0xB#4 hfit)).trans (decodeWord_wordNNN_B hfit),
    fun h => (completes_jumpTo (.jpV0 nnn) s h).imp fun t ⟨hpc, hrest⟩ => ⟨?_, hrest⟩,
    fun h => ⟨_, toNat_offsetTarget hfit, faults_jumpTo (.jpV0 nnn) s h⟩⟩
  rw [hpc]
  exact toNat_offsetTarget hfit

/-- Settles O33: the slot RET pops is the one CALL wrote, and the slots below it are untouched by both. -/
theorem callThenReturnResumesAfterTheCall : Obligations.CallThenReturnResumesAfterTheCall := by
  unfold Obligations.CallThenReturnResumesAfterTheCall
  intro s nnn hge hle hlt
  refine (completes_call (j := ⟨s.sp.val, hlt⟩) rfl ⟨hge, hle⟩).imp fun t ⟨hstack, hsp, _, _⟩ u hu husp => ?_
  have hj : s.sp.val + 1 = u.sp.val := by rw [husp, hsp]
  refine (completes_ret (j := ⟨s.sp.val, hlt⟩) hj).imp fun v ⟨hvsp, hvpc, hframe⟩ =>
    ⟨?_, Fin.ext hvsp, fun j hjlt => ?_⟩
  · rw [hvpc]
    simp [hu, hstack]
  · have hsame : v.stack[j.val] = u.stack[j.val] := hframe (.stack j) (by simp)
    simp only [hsame, hu, hstack]
    exact Vector.getElem_set_ne hlt j.isLt (by omega)

end Sys2Proof
end


section
/-! PROOFS. The memory transfers (spec/43_index_memory.md R83 to R85): what LD B and the block transfers store and
load, and that stored bytes are loaded back and fetched as code. -/

namespace Sys2Proof

namespace Machine

theorem Completes.of_next {o : Host.Outcome State Fault Refusal} {P : State → Prop} {t : State} (h : Completes o P)
    (ho : o = .next t) : P t := by
  obtain ⟨u, hu, hP⟩ := h
  rw [ho] at hu
  cases hu
  exact hP

/-- A read of the `j`-th byte written. -/
theorem read_writeBytes_add (m : Memory) (a : Nat) {ws : List Byte} {j : Nat} (hj : j < ws.length) :
    (m.writeBytes a ws).read (a + j) = ws[j] := by
  have h : a ≤ a + j ∧ a + j - a < ws.length := by omega
  rw [read_writeBytes, dif_pos h]
  simp only [Nat.add_sub_cancel_left]

/-- R84 and R85: where the last byte lies in memory, I after the transfer does not wrap. -/
theorem toNat_indexAfterBlock {s : State} {x : Reg} (h : indexAddr s + x.val ≤ 0xFFF) :
    (indexAfterBlock s x).toNat = s.i.toNat + x.val + 1 := by
  rw [indexAddr] at h
  rw [indexAfterBlock, blockCount, BitVec.toNat_add, BitVec.toNat_ofNat]
  omega

/-- The word fetched at an address inside memory. -/
theorem fetchWord_setPc (s : State) {a : Nat} (h : a + 1 ≤ 0xFFF) :
    (s.setPc (BitVec.ofNat 16 a)).fetchWord = some (wordOfBytes (s.mem.read a) (s.mem.read (a + 1))) := by
  have ha : (BitVec.ofNat 16 a).toNat = a := by
    rw [BitVec.toNat_ofNat]
    omega
  rw [fetchWord_of_le (by simp only [setPc_pc, ha, h])]
  simp only [setPc_pc, setPc_mem, ha]

section
variable {s : State} {x : Reg}

/-- R83 in range. -/
theorem completes_ldB (h : indexAddr s + 2 ≤ 0xFFF) :
    Completes (exec (.ldB x) s) fun t =>
      (t.mem.read (indexAddr s)).toNat = (s.readV x).toNat / 100 ∧
      (t.mem.read (indexAddr s + 1)).toNat = (s.readV x).toNat / 10 % 10 ∧
      (t.mem.read (indexAddr s + 2)).toNat = (s.readV x).toNat % 10 ∧
      t.pc = s.pc + 2#16 ∧
      OnlyChanges [.byte (indexAddr s), .byte (indexAddr s + 1), .byte (indexAddr s + 2), .pc] s t := by
  refine completes_exec fun t ht => ?_
  rcases execLdB_cases ht with ⟨hbad, -⟩ | ⟨-, rfl⟩
  · omega
  have hread (j : Nat) (hj : j < 3) :
      (s.mem.writeBytes (indexAddr s) (bcdDigits (s.readV x))).read (indexAddr s + j) = (bcdDigits (s.readV x))[j] :=
    read_writeBytes_add s.mem (indexAddr s) hj
  refine ⟨?_, ?_, ?_, rfl, ldB_onlyChanges s x⟩
  · exact (congrArg BitVec.toNat (hread 0 (by decide))).trans BitVec.toNat_udiv
  · refine (congrArg BitVec.toNat (hread 1 (by decide))).trans ?_
    show (s.readV x / 10#8 % 10#8).toNat = _
    rw [BitVec.toNat_umod, BitVec.toNat_udiv, BitVec.toNat_ofNat]
  · exact (congrArg BitVec.toNat (hread 2 (by decide))).trans BitVec.toNat_umod

/-- R84 in range. -/
theorem completes_ldMemVx (h : indexAddr s + x.val ≤ 0xFFF) :
    Completes (exec (.ldMemVx x) s) fun t =>
      (∀ r : Reg, r.val ≤ x.val → t.mem.read (indexAddr s + r.val) = s.readV r) ∧
      t.i.toNat = s.i.toNat + x.val + 1 ∧ t.pc = s.pc + 2#16 ∧
      UnchangedBut (fun p => p = .i ∨ p = .pc ∨ ∃ r : Reg, r.val ≤ x.val ∧ p = .byte (indexAddr s + r.val)) s t := by
  refine completes_exec fun t ht => ?_
  rcases execLdMemVx_cases ht with ⟨hbad, -⟩ | ⟨-, rfl⟩
  · omega
  refine ⟨fun r hr => ?_, toNat_indexAfterBlock h, rfl, ldMemVx_unchangedBut s x _⟩
  have hlen : r.val < (s.firstV (blockCount x)).length := by
    rw [length_firstV s (by unfold blockCount; omega), blockCount]
    omega
  exact (read_writeBytes_add s.mem (indexAddr s) hlen).trans (getElem_firstV s _ _ hlen r.isLt)

/-- R85 in range. -/
theorem completes_ldVxMem (h : indexAddr s + x.val ≤ 0xFFF) :
    Completes (exec (.ldVxMem x) s) fun t =>
      (∀ r : Reg, r.val ≤ x.val → t.readV r = s.mem.read (indexAddr s + r.val)) ∧
      t.i.toNat = s.i.toNat + x.val + 1 ∧ t.pc = s.pc + 2#16 ∧
      UnchangedBut (fun p => p = .i ∨ p = .pc ∨ ∃ r : Reg, r.val ≤ x.val ∧ p = .v r) s t := by
  refine completes_exec fun t ht => ?_
  rcases execLdVxMem_cases ht with ⟨hbad, -⟩ | ⟨-, rfl⟩
  · omega
  refine ⟨fun r hr => ?_, toNat_indexAfterBlock h, by rw [loadBlock_eq]; rfl, ldVxMem_unchangedBut s x _⟩
  have hlen : (s.mem.readBytes (indexAddr s) (blockCount x)).length = x.val + 1 := length_readBytes ..
  have hin : 0 ≤ r.val ∧ r.val - 0 < (s.mem.readBytes (indexAddr s) (blockCount x)).length := by omega
  show (s.loadBlock 0 _).readV r = _
  rw [readV_loadBlock s 0 _ (by omega), dif_pos hin, getElem_readBytes, Nat.sub_zero]

end

end Machine

open Machine

/-- Settles O35: `completes_ldB` in range, and by the cases of LD B out of it. -/
theorem bcdStoresThreeDigits : Obligations.BcdStoresThreeDigits := by
  unfold Obligations.BcdStoresThreeDigits
  refine fun s x => ⟨(decodeWord_ofNat_F x 0x33#8).trans (decodeF_wordXKK_33 x), completes_ldB,
    fun hbad => faults_exec fun t ht => ?_⟩
  rcases execLdB_cases ht with ⟨-, rfl⟩ | ⟨hle, -⟩
  · rfl
  · omega

/-- Settles O36: `completes_ldMemVx` in range, and by the cases of LD [I] out of it. -/
theorem blockStoreWritesTheRegisters : Obligations.BlockStoreWritesTheRegisters := by
  unfold Obligations.BlockStoreWritesTheRegisters
  refine fun s x => ⟨(decodeWord_ofNat_F x 0x55#8).trans (decodeF_wordXKK_55 x), completes_ldMemVx,
    fun hbad => faults_exec fun t ht => ?_⟩
  rcases execLdMemVx_cases ht with ⟨-, rfl⟩ | ⟨hle, -⟩
  · rfl
  · omega

/-- Settles O37: `completes_ldVxMem` in range, and by the cases of LD Vx, [I] out of it. -/
theorem blockLoadReadsTheBytes : Obligations.BlockLoadReadsTheBytes := by
  unfold Obligations.BlockLoadReadsTheBytes
  refine fun s x => ⟨(decodeWord_ofNat_F x 0x65#8).trans (decodeF_wordXKK_65 x), completes_ldVxMem,
    fun hbad => faults_exec fun t ht => ?_⟩
  rcases execLdVxMem_cases ht with ⟨-, rfl⟩ | ⟨hle, -⟩
  · rfl
  · omega

/-- Settles O38: the load reads at I + r what the store wrote there. -/
theorem dumpThenLoadRestoresTheRegisters : Obligations.DumpThenLoadRestoresTheRegisters := by
  unfold Obligations.DumpThenLoadRestoresTheRegisters
  intro s x h
  refine (completes_ldMemVx h).imp fun t ⟨hstored, _⟩ u hmem hi => ?_
  have hindex : indexAddr u = indexAddr s := congrArg BitVec.toNat hi
  refine (completes_ldVxMem (s := u) (x := x) (hindex ▸ h)).imp fun v ⟨hloaded, _⟩ r hr => ?_
  rw [hloaded r hr, hindex, hmem, hstored r hr]

/-- Settles O39: the fetch reads the two bytes big-endian where the store put them. -/
theorem storedBytesAreFetchedAsCode : Obligations.StoredBytesAreFetchedAsCode := by
  unfold Obligations.StoredBytesAreFetchedAsCode
  refine fun s t x => ⟨fun r q hx h hq hqx => ?_, fun hx h => ?_⟩
  · obtain ⟨hstored, -⟩ := (completes_ldMemVx h).of_next hx
    rw [fetchWord_setPc t (by omega), hstored r (by omega), Nat.add_assoc, ← hq, hstored q hqx]
    rfl
  · obtain ⟨hhundreds, htens, -⟩ := (completes_ldB h).of_next hx
    have hf := fetchWord_setPc t (a := indexAddr s) (by omega)
    rw [indexAddr, BitVec.ofNat_toNat, BitVec.setWidth_eq] at hf
    refine ⟨_, hf, ?_⟩
    rw [wordOfBytes_toNat]
    exact congrArg₂ (fun hi lo => hi * 0x100 + lo) hhundreds htens

end Sys2Proof
end


section
/-! PROOFS. The framebuffer instructions (spec/44_display.md R86 to R88): the cells a sprite covers, and what drawing
it does to them, to VF and to the draw flag. -/

namespace Sys2Proof

namespace Machine

/-! ### The sprite in memory -/

/-- A pixel of the sprite at I, read from the rows that DRW fetches, is a bit of the byte of its row. -/
theorem exists_spriteBit_iff (s : State) (n : Nat) (Q : Nat → Nat → Prop) :
    (∃ (r : Nat) (hr : r < (s.mem.readBytes (indexAddr s) n).length) (c : Nat), c < 8 ∧
      spriteBit (s.mem.readBytes (indexAddr s) n)[r] c = true ∧ Q r c) ↔
    ∃ r c : Nat, r < n ∧ c < 8 ∧ (s.mem.read (s.i.toNat + r)).getLsbD (7 - c) = true ∧ Q r c := by
  constructor
  · rintro ⟨r, hr, c, hc, hbit, hQ⟩
    rw [getElem_readBytes, spriteBit_eq _ hc] at hbit
    rw [length_readBytes] at hr
    exact ⟨r, c, hr, hc, hbit, hQ⟩
  · rintro ⟨r, c, hr, hc, hbit, hQ⟩
    refine ⟨r, by rwa [length_readBytes], c, hc, ?_, hQ⟩
    rwa [getElem_readBytes, spriteBit_eq _ hc]

/-- The rows DRW fetches are no more than the screen has. -/
theorem length_rows_le (s : State) {n : Nat} (hn : n ≤ 15) : (s.mem.readBytes (indexAddr s) n).length ≤ 32 := by
  rw [length_readBytes]
  omega

/-- A byte is not zero exactly when the sprite row it makes has a set pixel. -/
theorem exists_pixel_iff (b : Byte) : (∃ c < 8, b.getLsbD (7 - c) = true) ↔ b ≠ 0#8 := by
  constructor
  · rintro ⟨c, -, hbit⟩ rfl
    simp at hbit
  · intro hb
    by_contra hnone
    push Not at hnone
    refine hb (BitVec.eq_of_getLsbD_eq fun k hk => ?_)
    have hk7 := hnone (7 - k) (by omega)
    rw [Nat.sub_sub_self (by omega)] at hk7
    simpa using hk7

/-! ### Drawing it -/

/-- What DRW of `n` rows draws. -/
def spriteBlit (s : State) (x y : Reg) (n : Nat) : Blit :=
  blitRows (s.readV x).toNat (s.readV y).toNat (s.mem.readBytes (indexAddr s) n) ⟨s.fb, false, false⟩

/-- The flag DRW writes, as the number the spec writes. -/
theorem boolByte_cases (c : Bool) : (boolByte c = 1#8 ∧ c = true) ∨ (boolByte c = 0#8 ∧ ¬ c = true) := by
  cases c <;> simp [boolByte]

theorem boolByte_eq_one_iff (c : Bool) : boolByte c = 1#8 ↔ c = true := by
  cases c <;> simp [boolByte]

section
variable (s : State) (x y : Reg) {n : Nat} (hn : n ≤ 15)
include hn

theorem spriteBlit_cell (px : Fin 64) (py : Fin 32) :
    (spriteBlit s x y n).fb.cell px.val py.val = s.fb.cell px.val py.val ↔ ¬ SpriteCovers s x y n px py := by
  obtain ⟨hcell, -, -⟩ := blitRows_spec (s.readV x).toNat (s.readV y).toNat _ (length_rows_le s hn)
    ⟨s.fb, false, false⟩
  refine (hcell px.val py.val).trans (not_congr ?_)
  simp only [PixelOver]
  rw [exists_spriteBit_iff s n fun r c =>
    ((s.readV x).toNat + c) % 64 = px.val % 64 ∧ ((s.readV y).toNat + r) % 32 = py.val % 32]
  simp only [SpriteCovers, Nat.mod_eq_of_lt px.isLt, Nat.mod_eq_of_lt py.isLt]
  exact exists_congr fun r => exists_congr fun c => by tauto

theorem spriteBlit_collide :
    (spriteBlit s x y n).collide = true ↔ ∃ px py, SpriteCovers s x y n px py ∧ s.fb.cell px.val py.val = true := by
  obtain ⟨-, hcollide, -⟩ := blitRows_spec (s.readV x).toNat (s.readV y).toNat _ (length_rows_le s hn)
    ⟨s.fb, false, false⟩
  rw [exists_spriteBit_iff s n fun r c => s.fb.cell ((s.readV x).toNat + c) ((s.readV y).toNat + r) = true] at hcollide
  refine hcollide.trans ?_
  simp only [Bool.false_eq_true, false_or]
  constructor
  · rintro ⟨r, c, hr, hc, hbit, hset⟩
    refine ⟨⟨_, Nat.mod_lt _ (by decide)⟩, ⟨_, Nat.mod_lt _ (by decide)⟩, ⟨r, c, hr, hc, rfl, rfl, hbit⟩, ?_⟩
    rwa [cell_wrap]
  · rintro ⟨px, py, ⟨r, c, hr, hc, hx, hy, hbit⟩, hset⟩
    refine ⟨r, c, hr, hc, hbit, ?_⟩
    rwa [← cell_wrap, hx, hy]

theorem spriteBlit_changed :
    (spriteBlit s x y n).changed = true ↔ ∃ r < n, s.mem.read (indexAddr s + r) ≠ 0#8 := by
  obtain ⟨-, -, hchanged⟩ := blitRows_spec (s.readV x).toNat (s.readV y).toNat _ (length_rows_le s hn)
    ⟨s.fb, false, false⟩
  have hbits := exists_spriteBit_iff s n fun _ _ => True
  simp only [and_true] at hbits
  rw [hbits] at hchanged
  refine hchanged.trans ?_
  simp only [Bool.false_eq_true, false_or, ← exists_pixel_iff, indexAddr]
  exact exists_congr fun r => by simp only [exists_and_left]

end

/-- R87 in range. -/
theorem completes_drw (s : State) (x y : Reg) {n : Nat} (h : 0 < n → indexAddr s + n - 1 ≤ 0xFFF) :
    Completes (exec (.drw x y n) s) fun t =>
      t.fb = (spriteBlit s x y n).fb ∧ t.readV vf = boolByte (spriteBlit s x y n).collide ∧
      t.drawFlag = (s.drawFlag || (spriteBlit s x y n).changed) ∧ t.pc = s.pc + 2#16 ∧
      UnchangedBut (fun p => p = .v vf ∨ p = .drawFlag ∨ p = .pc ∨ ∃ px py, p = .cell px py) s t := by
  refine completes_exec fun t ht => ?_
  rcases execDrw_cases ht with ⟨hpos, hbad, -⟩ | ⟨-, b, rfl, rfl⟩
  · have := h hpos
    omega
  · exact ⟨rfl, readV_setV_self _ vf _, rfl, rfl, drw_unchangedBut s _ _ _⟩

end Machine

open Machine

/-- Settles O40: the blank framebuffer has every cell clear. -/
theorem clearScreenClearsEveryCell : Obligations.ClearScreenClearsEveryCell := by
  unfold Obligations.ClearScreenClearsEveryCell
  exact fun s => ⟨decodeWord_encode (i := .cls) rfl, _, rfl, fun px py => cell_blank px.val py.val, rfl, rfl,
    cls_unchangedBut s _ _⟩

/-- Settles O41: `completes_drw` with what the sprite does to the cells, the collision and the draw flag, and by the
cases of DRW out of range. -/
theorem drawXorsTheSprite : Obligations.DrawXorsTheSprite := by
  unfold Obligations.DrawXorsTheSprite
  intro s x y n hn
  refine ⟨?_, fun h => (completes_drw s x y h).imp fun t ⟨hfb, hvf, hdraw, hpc, hframe⟩ =>
      ⟨fun px py => ?_, ?_, ?_, hpc, hframe⟩, fun ⟨hpos, hbad⟩ => faults_exec fun t ht => ?_⟩
  · have hword := ofNat_eq_wordXYN 0xD#4 x y (BitVec.ofNat 4 n)
    rw [toNat_ofNat_height hn] at hword
    exact (congrArg decodeWord hword).trans (decodeWord_encode (i := .drw x y n) ((heightFits_iff n).2 hn))
  · rw [hfb]
    exact spriteBlit_cell s x y hn px py
  · rw [hvf, ← spriteBlit_collide s x y hn]
    exact boolByte_cases _
  · rw [hdraw, Bool.or_eq_true, spriteBlit_changed s x y hn]
  · rcases execDrw_cases ht with ⟨-, -, rfl⟩ | ⟨hin, -⟩
    · rfl
    · have := hin hpos
      omega

/-- Settles O42: a cell the sprite covers is flipped by both draws, any other by neither, and the second draw meets
every covered cell flipped. -/
theorem drawingTwiceRestoresTheScreen : Obligations.DrawingTwiceRestoresTheScreen := by
  unfold Obligations.DrawingTwiceRestoresTheScreen
  intro s x y n hn h
  refine (completes_drw s x y h).imp fun t ⟨htfb, _⟩ u hfb hmem hi hx hy => ?_
  have hindex : indexAddr u = indexAddr s := congrArg BitVec.toNat hi
  have hcovers (px py) : SpriteCovers u x y n px py ↔ SpriteCovers s x y n px py := by
    simp only [SpriteCovers, hmem, hi, hx, hy]
  refine (completes_drw u x y (hindex ▸ h)).imp fun v ⟨hvfb, hvf, _⟩ => ?_
  have hfirst (px py) : u.fb.cell px.val py.val = s.fb.cell px.val py.val ↔ ¬ SpriteCovers s x y n px py := by
    rw [hfb, htfb, spriteBlit_cell s x y hn]
  have hsecond (px py) : v.fb.cell px.val py.val = u.fb.cell px.val py.val ↔ ¬ SpriteCovers s x y n px py := by
    rw [hvfb, spriteBlit_cell u x y hn, hcovers]
  have hflip (px py) (hc : SpriteCovers s x y n px py) : u.fb.cell px.val py.val = !s.fb.cell px.val py.val :=
    Bool.eq_not.2 (mt (hfirst px py).1 (not_not.2 hc))
  refine ⟨fb_ext fun px py => ?_, ?_⟩
  · by_cases hc : SpriteCovers s x y n px py
    · rw [Bool.eq_not.2 (mt (hsecond px py).1 (not_not.2 hc)), hflip px py hc, Bool.not_not]
    · rw [(hsecond px py).2 hc, (hfirst px py).2 hc]
  · rw [hvf, boolByte_eq_one_iff, spriteBlit_collide u x y hn]
    refine exists_congr fun px => exists_congr fun py => ?_
    rw [hcovers]
    refine and_congr_right fun hc => ?_
    rw [hflip px py hc, Bool.not_eq_true']

/-- Settles O43: with no row nothing is drawn. -/
theorem drawOfNoRowsOnlyClearsVf : Obligations.DrawOfNoRowsOnlyClearsVf := by
  unfold Obligations.DrawOfNoRowsOnlyClearsVf
  refine fun s x y => completes_exec fun t ht => ?_
  rcases execDrw_cases (x := x) (y := y) (n := 0) ht with ⟨hpos, -⟩ | ⟨-, b, rfl, rfl⟩
  · exact absurd hpos (by decide)
  · have hsame : s.setScreen s.fb (s.drawFlag || false) = s := by rw [Bool.or_false]; rfl
    show _ ∧ _ ∧ OnlyChanges _ s (((s.setScreen s.fb (s.drawFlag || false)).setV vf 0#8).advance .next)
    rw [hsame]
    exact ⟨readV_setV_self _ vf _, rfl, (setV_onlyChanges s vf _).trans (advance_onlyChanges _ .next)⟩

end Sys2Proof
end


section
/-! PROOFS. The keyboard instructions, Reset, the host's transactions and read ports, and the start of a program
(spec/45_timers_keys.md R89 to R91 and R95, spec/60_exceptions.md R103 to R106, spec/70_reset_and_hazards.md R109 and
R110). -/

namespace Sys2Proof

namespace Machine

/-! ### Keyboard instructions -/

theorem keyOperand_of_eq {b : Byte} {k : Key} (h : b.toNat = k.val) : keyOperand b = some k := by
  rw [keyOperand_of_lt (h ▸ k.isLt)]
  exact congrArg some (Fin.ext h)

section
variable {s : State} {x : Reg}

/-- R90 for a key number of the bank. -/
theorem completes_skp {k : Key} (hk : (s.readV x).toNat = k.val) :
    Completes (exec (.skp x) s) fun t =>
      t.pc = (if s.keyPressed k = true then s.pc + 4#16 else s.pc + 2#16) ∧ OnlyChanges [.pc] s t := by
  show Completes (execSkp x s) _
  rw [execSkp, keyOperand_of_eq hk]
  exact completes_skipIf s Iff.rfl

/-- R91 for a key number of the bank. -/
theorem completes_sknp {k : Key} (hk : (s.readV x).toNat = k.val) :
    Completes (exec (.sknp x) s) fun t =>
      t.pc = (if s.keyPressed k = true then s.pc + 2#16 else s.pc + 4#16) ∧ OnlyChanges [.pc] s t := by
  show Completes (execSknp x s) _
  rw [execSknp, keyOperand_of_eq hk]
  have h := completes_skipIf s (c := !s.keyPressed k) (p := ¬ s.keyPressed k = true) (by simp)
  simpa only [ite_not] using h

theorem advance_none (s : State) : s.advance .none = s := by
  simp [State.advance, advanceBy]

end

/-! ### Reset, ticks and loads -/

theorem length_font : font.length = 0x50 := rfl

theorem font_getElem? {a : Nat} (h : a < 0x50) : font[a]? = some (unlistedByte a) := by
  have hlt : a < font.length := length_font ▸ h
  rw [unlistedByte, List.getElem?_eq_getElem hlt, List.getD_eq_getElem _ _ hlt]

theorem unlistedByte_of_ge {a : Nat} (h : 0x50 ≤ a) : unlistedByte a = 0x00#8 :=
  List.getD_eq_default _ _ (length_font ▸ h)

theorem readV_reset (r : Reg) : State.reset.readV r = 0x00#8 := Vector.getElem_replicate r.isLt

theorem stack_reset (j : Fin 16) : State.reset.stack[j.val] = 0x0000#16 := Vector.getElem_replicate j.isLt

theorem keyPressed_reset (k : Key) : State.reset.keyPressed k = false := Vector.getElem_replicate k.isLt

theorem toNat_countDown (b : Byte) : (countDown b).toNat = b.toNat - 1 := by
  unfold countDown
  split
  next h => rw [h]; rfl
  next h =>
    rw [BitVec.toNat_eq] at h
    have := b.isLt
    simp only [BitVec.toNat_ofNat] at h
    rw [BitVec.toNat_sub, BitVec.toNat_ofNat]
    omega

section
variable (s : State) {bytes : List Byte}

theorem loadImage_of_le (h : bytes.length ≤ 0xE00) :
    s.loadImage bytes = (.ok, { s with mem := s.mem.writeBytes 0x200 bytes }) :=
  if_neg (Nat.not_lt.2 h)

theorem loadImage_of_gt (h : 0xE00 < bytes.length) : s.loadImage bytes = (.tooLarge, s) :=
  if_pos h

theorem storeAtPc_of_le (w : Word) (h : s.pc.toNat + 1 ≤ 0xFFF) :
    s.storeAtPc w = { s with mem := s.mem.writeBytes s.pc.toNat [highByteOf w, lowByteOf w] } := by
  have hin : InRange s.pc.toNat [highByteOf w, lowByteOf w].length := fun _ => h
  rw [State.storeAtPc, memWrite_eq, if_pos hin, Option.getD_some]

/-- A word placed at PC is the word fetched there. -/
theorem fetchWord_storeAtPc (w : Word) (h : s.pc.toNat + 1 ≤ 0xFFF) : (s.storeAtPc w).fetchWord = some w := by
  have hhi := read_writeBytes_add s.mem s.pc.toNat (ws := [highByteOf w, lowByteOf w]) (j := 0) (by simp)
  have hlo := read_writeBytes_add s.mem s.pc.toNat (ws := [highByteOf w, lowByteOf w]) (j := 1) (by simp)
  rw [storeAtPc_of_le s w h]
  refine (fetchWord_of_le ?_).trans (congrArg some ((congrArg₂ wordOfBytes hhi hlo).trans (wordOfBytes_bytes w)))
  exact h

theorem withFetchWord_toNat (w : Word) : s.withFetchWord 16 w.toNat = s.storeAtPc w := by
  rw [State.withFetchWord, Nat.mod_eq_of_lt w.isLt, BitVec.ofNat_toNat, BitVec.setWidth_eq]

/-! ### Read ports -/

/-- ClearDrawFlag changes the draw flag alone. -/
theorem clearDrawFlag_onlyChanges : OnlyChanges [.drawFlag] s s.clearDrawFlag := by
  intro p hp
  cases p
  case drawFlag => exact absurd (List.mem_singleton_self Part.drawFlag) hp
  all_goals rfl

theorem statusPort_eq_two_iff : s.statusPort = 2#2 ↔ s.status = .faulted := by
  unfold State.statusPort
  cases s.status <;> decide

theorem faultCodePort_of_some {f : FaultRecord} (h : s.fault = some f) : s.faultCodePort = faultKindCode f.kind := by
  rw [State.faultCodePort, h]

theorem faultCodePort_of_none (h : s.fault = none) : s.faultCodePort = 0#3 := by
  rw [State.faultCodePort, h]

theorem faultCodePort_ne_zero_iff : s.faultCodePort ≠ 0#3 ↔ s.fault.isSome = true := by
  cases h : s.fault with
  | none => simp [faultCodePort_of_none s h]
  | some f =>
    rw [faultCodePort_of_some s h]
    exact iff_of_true (by cases f.kind <;> decide) rfl

/-- D16: the framebuffer port reads the cells row by row. -/
theorem fbPort_getElem (px : Fin 64) (py : Fin 32) :
    s.fbPort[py.val * 64 + px.val]? = some (s.fb.cell px.val py.val) := by
  have hlt : py.val * 64 + px.val < 32 * 64 := by omega
  have hrow : (py.val * 64 + px.val) / 64 = py.val := by omega
  have hcol : (py.val * 64 + px.val) % 64 = px.val := by omega
  rw [Vector.getElem?_eq_getElem hlt]
  simp only [State.fbPort, Vector.getElem_flatten, Framebuffer.cell, hrow, hcol, Nat.mod_eq_of_lt px.isLt,
    Nat.mod_eq_of_lt py.isLt]

end

end Machine

open Machine

/-- Settles O44: a register up to 0xF is a key number, and one above it is none. -/
theorem keySkips : Obligations.KeySkips := by
  unfold Obligations.KeySkips
  refine fun s x => ⟨(decodeWord_ofNat_E x 0x9E#8).trans (decodeE_wordXKK_9E x),
    (decodeWord_ofNat_E x 0xA1#8).trans (decodeE_wordXKK_A1 x), fun k hk => ⟨completes_skp hk, completes_sknp hk⟩,
    fun hbad => ⟨(s.readV x).zeroExtend 16, toNat_zeroExtend_byte _, faults_exec fun t ht => ?_,
      faults_exec fun t ht => ?_⟩⟩
  · rcases execSkp_cases ht with ⟨-, rfl⟩ | ⟨k, hk, -⟩
    · rfl
    · omega
  · rcases execSknp_cases ht with ⟨-, rfl⟩ | ⟨k, hk, -⟩
    · rfl
    · omega

/-- Settles O46: by the cases of the key wait; there is one least pressed key. -/
theorem keyWaitTakesTheLeastKey : Obligations.KeyWaitTakesTheLeastKey := by
  unfold Obligations.KeyWaitTakesTheLeastKey
  refine fun s x => ⟨(decodeWord_ofNat_F x 0x0A#8).trans (decodeF_wordXKK_0A x), fun hnone => ?_,
    fun k hk hleast => ?_⟩ <;> refine completes_exec fun t ht => ?_
  · rcases execLdVxK_cases ht with ⟨-, rfl⟩ | ⟨k, hk, -⟩
    · rw [advance_none]
      exact fun p _ => Part.same_refl s p
    · exact absurd hk (by simp [hnone k])
  · rcases execLdVxK_cases ht with ⟨hnone, -⟩ | ⟨q, hq, hqleast, rfl⟩
    · exact absurd hk (by simp [hnone k])
    · obtain rfl : k = q := by
        rcases lt_trichotomy k q with hlt | heq | hlt
        · exact absurd hk (by simp [hqleast k hlt])
        · exact heq
        · exact absurd hq (by simp [hleast q hlt])
      refine ⟨?_, rfl, (setV_onlyChanges s x _).trans (advance_onlyChanges _ .next)⟩
      have := k.isLt
      rw [advance_readV, readV_setV_self, BitVec.toNat_ofNat]
      omega

/-- Settles O17: every field of the reset state is as the table says, and unlisted memory reads as FONT below 0x050
and 0 above. -/
theorem resetLeavesTheStatedState : Obligations.ResetLeavesTheStatedState := by
  unfold Obligations.ResetLeavesTheStatedState
  rintro s t (rfl | rfl) <;>
    exact ⟨rfl, readV_reset, rfl, rfl, stack_reset, rfl, rfl, fun px py => cell_blank px.val py.val, rfl,
      keyPressed_reset, rfl, rfl, fun a => font_getElem?, fun a => unlistedByte_of_ge⟩

/-- Settles O53: `toNat_countDown` for each timer. -/
theorem tickCountsDownToZero : Obligations.TickCountsDownToZero := by
  unfold Obligations.TickCountsDownToZero
  exact fun s => ⟨_, rfl, toNat_countDown s.dt, toNat_countDown s.st,
    (setDt_onlyChanges s _).trans (setSt_onlyChanges _ _)⟩

/-- Settles O54: an image that fits is one write of bytes at 0x200. -/
theorem loadImageWritesTheImageOrNothing : Obligations.LoadImageWritesTheImageOrNothing := by
  unfold Obligations.LoadImageWritesTheImageOrNothing
  refine fun s bytes => ⟨fun h => ?_, loadImage_of_gt s, rfl⟩
  rw [loadImage_of_le s h]
  exact ⟨rfl, fun j hj => read_writeBytes_add s.mem 0x200 hj, writeBytes_unchangedBut s 0x200 bytes⟩

/-- Settles O55: PC is 0x200 after Reset, and the image's first two bytes lie there after LoadImage. -/
theorem bootRunsTheFirstWordOfTheImage : Obligations.BootRunsTheFirstWordOfTheImage := by
  unfold Obligations.BootRunsTheFirstWordOfTheImage
  intro s hi lo rest i hlen hdecode
  rw [loadImage_of_le _ hlen]
  have hhi := read_writeBytes_add s.applyReset.mem 0x200 (ws := hi :: lo :: rest) (j := 0) (by simp)
  have hlo := read_writeBytes_add s.applyReset.mem 0x200 (ws := hi :: lo :: rest) (j := 1) (by simp)
  have hpc : State.reset.pc.toNat ≤ 0xFFE := by decide
  exact step_of_decode (rest := []) rfl hpc ((congrArg₂ (fun a b => decode [a, b]) hhi hlo).trans hdecode)

/-- Settles O57: the placed word is fetched (`fetchWord_storeAtPc`), and it decodes to the instruction
(`decodeWord_encode`). -/
theorem placedInstructionRunsFirst : Obligations.PlacedInstructionRunsFirst := by
  unfold Obligations.PlacedInstructionRunsFirst
  intro i hwf
  have hpc : State.reset.pc.toNat + 1 ≤ 0xFFF := by decide
  rw [withFetchWord_toNat]
  refine State.Fetches.step_eq ⟨_, fetchWord_storeAtPc _ _ hpc, decodeWord_encode hwf⟩ ?_
  rw [storeAtPc_of_le _ _ hpc]
  rfl

/-- Settles O56: each port is a read of the state, and the codes agree because the invariant ties the status to the
fault record. -/
theorem hostPortsShowTheState : Obligations.HostPortsShowTheState := by
  unfold Obligations.HostPortsShowTheState
  refine ⟨fbPort_getElem, fun s => ⟨rfl, rfl, rfl⟩, fun s => ⟨?_, ?_, ?_⟩, faultCodePort_of_none, fun s f hf => ?_,
    fun s hs => ?_, fun s => ⟨_, rfl, rfl, ?_⟩⟩
  · exact congrArg statusCode
  · exact congrArg statusCode
  · exact congrArg statusCode
  · rw [faultCodePort_of_some s hf]
    exact ⟨congrArg faultKindCode, congrArg faultKindCode, congrArg faultKindCode, congrArg faultKindCode,
      congrArg faultKindCode⟩
  · rw [statusPort_eq_two_iff, faultCodePort_ne_zero_iff, hs.faultIff]
  · exact clearDrawFlag_onlyChanges s

end Sys2Proof
end
